-- ==== Sys2Proof/Word.lean ====
section
/-! DEFINITION. The word of the machine (00_scope.md R6; width from 92_eei_decisions.md D1). -/

namespace Sys2Proof

/-- A word: a signed integer of `WORD_BITS` = 64 bits, two's complement (R5, R6). Its value as the spec
speaks of it is `w.toInt`. DESIGN CHOICE of the spec, D1 (log 1): the source gives no width. -/
abbrev Word := BitVec 64

/-- A byte of the host's UTF-8 text (20_memory.md R54). The machine itself has no bytes (R45). -/
abbrev Byte := BitVec 8

end Sys2Proof
end

