-- ==== Sys2Proof/Config.lean ====
section
/-! DEFINITION. The implementation parameters of Table P1 (00_scope.md R5). No value of the spec is left
open for a free value: 92_eei_decisions.md ends with "No point is left OPEN". -/

namespace Sys2Proof

/-- `WORD_BITS` (R5, D1, D24; log 1): the width of a memory word, of `io` and of `ip`. -/
abbrev Config.wordBits : Nat := 64

/-- `WORD_MIN` = −2^(W−1) (R5). -/
abbrev Config.wordMin : Int := -(2 ^ (Config.wordBits - 1))

/-- `WORD_MAX` = 2^(W−1) − 1 (R5). -/
abbrev Config.wordMax : Int := 2 ^ (Config.wordBits - 1) - 1

/-- `LEN_MAX` = 2^(W−1) − 4, the greatest image length (R5, D16; log 19). -/
abbrev Config.lenMax : Nat := 2 ^ (Config.wordBits - 1) - 4

/-- How many decimal digits the mode field `w div 100` of a word w ≥ 0 can have: w ≤ `WORD_MAX` < 10^19. -/
abbrev Config.modeDigits : Nat := 17

end Sys2Proof
end

