-- ==== Sys2Proof/Machine/Alu.lean ====
section
/-! DEFINITION. Integer arithmetic (41_arithmetic.md R102): the exact integer result, then `wrap_W`. -/

namespace Sys2Proof.Machine

/-- `wrap_W(v)`, the unique word congruent to v modulo 2^W (R6; D1, D2, log 2). -/
def wrapW (v : Int) : Word := BitVec.ofInt Config.wordBits v

/-- `wrap_W(a + b)` (R100, R102). -/
def addW (a b : Word) : Word := wrapW (a.toInt + b.toInt)

/-- `wrap_W(a * b)` (R101, R102). -/
def mulW (a b : Word) : Word := wrapW (a.toInt * b.toInt)

end Sys2Proof.Machine
end

