-- ==== Sys2Proof/Machine/State.lean ====
section
/-! DEFINITION. The state of the machine, plain data: exactly the five items of Table S1 (10_state.md R20),
and the reasons a step or a host transaction can stop. -/

namespace Sys2Proof.Machine

/-- The three error kinds that can end a run and stand in `status` (R26, R150). -/
inductive RunError where
  /-- A fetch, parameter fetch, operand or write address outside `[0, len)` (R151). -/
  | outOfBounds
  /-- The decoded opcode is not in the supported set (R152). -/
  | unknownOpcode
  /-- A mode digit is not 0 or 1 (R153). -/
  | unknownParameterMode
  deriving DecidableEq, Repr

/-- The run status (R26). `Halted` and `Failed` are terminal. -/
inductive RunStatus where
  | running
  | halted
  | failed (kind : RunError)
  deriving DecidableEq, Repr

/-- One word at an address. The spec's smallest addressable unit is the word and it has no byte order
(R40, R45), so a cell holds a word, not a byte (log 5). -/
abbrev Cell := Nat × Word

/-- The words of the Program Image, sparse: addresses strictly rising and no entry equal to what an
unlisted address reads as (Memory.wf in Ops.lean; log 5). -/
abbrev Memory := List Cell

/-- The Program Image: `len` words, index-addressed from 0 (R10, R20, R21, R22). -/
structure Image where
  /-- `len`, the number of words (R22); 0 only where no image is loaded (log 4). -/
  len : Nat
  /-- `mem[0..len−1]` (R21). -/
  mem : Memory
  deriving DecidableEq, Repr

/-- The architectural state of one core (R20, Table S1): `mem` and `len` from the image, `ip`, `io` and
`status`. -/
structure State extends Image where
  /-- The instruction pointer, a signed word (R23, R24). -/
  ip : Word
  /-- The I/O register, shared by IN and OUT (R25). -/
  io : Word
  /-- The run status (R26). -/
  status : RunStatus
  deriving DecidableEq, Repr

/-- Where the core takes no step. -/
inductive Fault where
  /-- Raised by `step` when `status` is `Halted`: terminal, no further step is executed (R26, R91, R140).
  Safe: the spec gives no next state here (log 6). -/
  | halted
  /-- Raised by `step` when `status` is `Failed(kind)`: terminal (R26, R157). Safe: the spec gives no
  next state here (log 6). -/
  | failed (kind : RunError)
  deriving DecidableEq, Repr

/-- What the model gives no meaning to. No instruction's meaning answers one of these. -/
inductive Refusal where
  /-- An instruction that has no meaning yet, raised by an arm of `exec`; no arm raises it. Safe. -/
  | notModelled (mnemonic : String)
  /-- A host transaction while a run is in progress, raised by `transact` (R190, U11; log 21). Safe. -/
  | runInProgress
  /-- A `run` whose input is not a word, raised by `transact` (R181, D23, U12; log 23). Safe. -/
  | inputOutOfRange
  /-- A literal of more than `LEN_MAX` words, raised by `loadWords` (R5, D16, U12; log 19). Safe. -/
  | imageTooLong
  /-- A step of a core that does not exist, raised by `stepCore` (R164; log 25). Safe. -/
  | noSuchCore
  deriving DecidableEq, Repr

/-- The machine right after reset, which is run entry (R32, R180): `ip` = 0, `status` = `Running`; `io` is
the `input` argument, here 0 (DESIGN CHOICE, log 3); `mem` and `len` are what the host left there, here no
image at all (DESIGN CHOICE, log 4). -/
def State.reset : State :=
  { len := 0, mem := [], ip := 0, io := 0, status := .running }

end Sys2Proof.Machine
end

