-- ==== Sys2Proof/Machine/Ops.lean ====
section
/-! DEFINITION. The named operations over memory, registers and status: MemRead and MemWrite
(20_memory.md R41 to R43), the writes of `ip` and `io`, error entry (60_exceptions.md R156) and run entry
(70_reset_and_hazards.md R180), the only way out of a terminal status (R184). -/

namespace Sys2Proof.Machine

/-- What an address of the image that no cell lists reads as: 0. Every word of an image comes from its
literal (R58), so this is only how a word 0 is written down (log 5). -/
def Memory.unlisted : Word := 0

/-- The canonical form of a memory: addresses strictly rising, and no cell that says what an unlisted
address reads as anyway (log 5). -/
abbrev Memory.wf (m : Memory) : Prop :=
  m.Pairwise (fun x y => x.1 < y.1) ∧ ∀ c ∈ m, c.2 ≠ Memory.unlisted

/-- The word at an address. -/
def Memory.lookup : Memory → Nat → Word
  | [], _ => Memory.unlisted
  | (k, u) :: m, a => if a = k then u else Memory.lookup m a

/-- A cell put in front, unless it says what an unlisted address reads as. -/
def Memory.push (a : Nat) (v : Word) (m : Memory) : Memory :=
  if v = Memory.unlisted then m else (a, v) :: m

/-- The memory with the word at `a` replaced, in canonical form again. -/
def Memory.store : Memory → Nat → Word → Memory
  | [], a, v => Memory.push a v []
  | (k, u) :: m, a, v =>
    if a < k then Memory.push a v ((k, u) :: m)
    else if a = k then Memory.push a v m
    else (k, u) :: Memory.store m a v

/-- The address a lies in `[0, len)` (R40). -/
abbrev Image.InBounds (img : Image) (a : Int) : Prop := 0 ≤ a ∧ a < (img.len : Int)

/-- `mem[a]` for an address of the image. -/
def Image.word (img : Image) (a : Nat) : Word := img.mem.lookup a

/-- `MemRead(a, 1)` (R41). -/
def Image.read (img : Image) (a : Int) : Except RunError Word :=
  if img.InBounds a then .ok (img.word a.toNat) else .error .outOfBounds

/-- `MemWrite(a, 1, v)` (R42). -/
def Image.write (img : Image) (a : Int) (v : Word) : Except RunError Image :=
  if img.InBounds a then .ok { img with mem := img.mem.store a.toNat v } else .error .outOfBounds

/-- `MemRead(a, n)` (R43): n consecutive words, no partial sequence; n = 0 makes no access and cannot
fail (D17; log 20). -/
def Image.slice (img : Image) (a : Int) (n : Nat) : Except RunError (List Word) :=
  if n = 0 then .ok []
  else if 0 ≤ a ∧ a + n ≤ (img.len : Int) then .ok ((List.range n).map fun k => img.word (a.toNat + k))
  else .error .outOfBounds

/-- The state with its image replaced, `len` and `mem` both. -/
def State.withImage (img : Image) (s : State) : State := { s with toImage := img }

/-- `io <- v` (R25). -/
def State.setIo (v : Word) (s : State) : State := { s with io := v }

/-- `ip <- t`, the unchecked assignment of a taken jump (R24, R122, D10; log 13). -/
def State.jumpTo (t : Word) (s : State) : State := { s with ip := t }

/-- The default advance `ip <- ip + 1 + n` (R88; log 27). -/
def State.advance (n : Nat) (s : State) : State := s.jumpTo (s.ip + BitVec.ofNat 64 (1 + n))

/-- `status <- st` (R26). -/
def State.setStatus (st : RunStatus) (s : State) : State := { s with status := st }

/-- Error entry (R156): `status <- Failed(kind)` and nothing else is written; `ip` stays at the faulting
instruction word (R89, D11; log 14). There is no handler and no return (R157): only a run entry leaves a
terminal status (R184). -/
def raise (kind : RunError) (s : State) : Host.Outcome State Fault Refusal :=
  .next (s.setStatus (.failed kind))

/-- Go on with a checked result, or raise its error (R155: the first error in the order of the phases). -/
def attempt {α : Type} (s : State) (r : Except RunError α)
    (k : α → Host.Outcome State Fault Refusal) : Host.Outcome State Fault Refusal :=
  match r with
  | .ok x => k x
  | .error e => raise e s

/-- Run entry on an image (R180): `io <- input`, `ip <- 0`, `status <- Running`; the image is neither
read, cleared, restored nor checked. -/
def runEntry (img : Image) (input : Word) : State :=
  { toImage := img, ip := 0, io := input, status := .running }

end Sys2Proof.Machine
end

