-- ==== Sys2Proof/Syntax.lean ====
section
/-! DEFINITION. The syntax of the instruction set: the nine rows of spec/opcode_table.json
(30_encoding.md R64, R65, Table E1 and Table E2). -/

namespace Sys2Proof

/-- The nine supported opcodes of Table E2 (R65). -/
inductive Opcode where
  | add | mul | inp | out | jnz | jz | lt | eq | halt
  deriving DecidableEq, Repr

/-- A parameter mode: digit 0 is position, digit 1 is immediate (R2, R62). -/
inductive Mode where
  | position
  | immediate
  deriving DecidableEq, Repr

/-- What an instruction does with a parameter (R64): a value parameter is read through its mode, a
write parameter is a raw address. -/
inductive Role where
  | value
  | write
  deriving DecidableEq, Repr

/-- A value parameter with its mode resolved at decode (R10, R84): position, the word stored at `addr`
is used; immediate, `val` itself is used. -/
inductive Operand where
  | position (addr : Word)
  | immediate (val : Word)
  deriving DecidableEq, Repr

/-- An instruction, one constructor per row of the opcode table (R65). A write parameter is the raw
address word: its mode digit selects nothing (R70), so it is not kept (log 28). -/
inductive Instr where
  /-- ADD, opcode 1 (R100). -/
  | add (a b : Operand) (dst : Word)
  /-- MUL, opcode 2 (R101). -/
  | mul (a b : Operand) (dst : Word)
  /-- IN, opcode 3 (R110); `in` is a word of Lean's own. -/
  | inp (dst : Word)
  /-- OUT, opcode 4 (R111). -/
  | out (src : Operand)
  /-- JNZ, opcode 5 (R120). -/
  | jnz (cond target : Operand)
  /-- JZ, opcode 6 (R121). -/
  | jz (cond target : Operand)
  /-- LT, opcode 7 (R130). -/
  | lt (a b : Operand) (dst : Word)
  /-- EQ, opcode 8 (R131). -/
  | eq (a b : Operand) (dst : Word)
  /-- HALT, opcode 99 (R140). -/
  | halt
  deriving DecidableEq, Repr

end Sys2Proof
end

