-- ==== Sys2Proof/Machine/Operands.lean ====
section
/-! DEFINITION. Operand forms: `value(i)` and `waddr(i)` (40_execution_cycle.md R84 to R87), and the two
shapes of instruction that store a word. -/

namespace Sys2Proof.Machine

/-- `value(i)` (R84): position reads the word at the address, with its bounds check; immediate is the
parameter itself and reads no memory. -/
def value (o : Operand) (s : State) : Except RunError Word :=
  match o with
  | .position a => s.toImage.read a.toInt
  | .immediate v => .ok v

/-- Store `v` at the write parameter `dst` and advance by 1 + n (R86, R87, R88): the raw address is
checked before anything is written. -/
def storeAndAdvance (dst v : Word) (n : Nat) (s : State) : Host.Outcome State Fault Refusal :=
  attempt s (s.toImage.write dst.toInt v) fun img => .next ((s.withImage img).advance n)

/-- Format A (R64): both value parameters are resolved in order (R85), then `f` of them is stored at the
write parameter; the default advance is 4 (R88). -/
def binaryStore (f : Word → Word → Word) (a b : Operand) (dst : Word) (s : State) :
    Host.Outcome State Fault Refusal :=
  attempt s (value a s) fun x =>
    attempt s (value b s) fun y =>
      storeAndAdvance dst (f x y) 3 s

/-- Format J (R64): both value parameters are resolved, the target too when the jump is not taken (R85, D8;
log 11); taken, `ip <- value(1)`, else the default advance 3 (R122). -/
def conditionalJump (taken : Word → Bool) (cond target : Operand) (s : State) :
    Host.Outcome State Fault Refusal :=
  attempt s (value cond s) fun c =>
    attempt s (value target s) fun t =>
      .next (if taken c then s.jumpTo t else s.advance 2)

end Sys2Proof.Machine
end

