-- ==== Sys2Proof/Machine/Arithmetic.lean ====
section
/-! DEFINITION. The arithmetic instructions (41_arithmetic.md). -/

namespace Sys2Proof.Machine

/-- ADD (R100): `mem[p2] <- wrap_W(value(0) + value(1)); ip <- ip + 4`. -/
def execAdd (a b : Operand) (dst : Word) (s : State) : Host.Outcome State Fault Refusal :=
  binaryStore addW a b dst s

/-- MUL (R101): `mem[p2] <- wrap_W(value(0) * value(1)); ip <- ip + 4`. -/
def execMul (a b : Operand) (dst : Word) (s : State) : Host.Outcome State Fault Refusal :=
  binaryStore mulW a b dst s

end Sys2Proof.Machine
end

