-- ==== Sys2Proof/Machine/Flags.lean ====
section
/-! DEFINITION. The machine has no flags (10_state.md R28). What it has in their place: the word, 1 or 0,
that a comparison stores (44_compare.md R130, R131), and the zero test of the jumps (R120, R121). -/

namespace Sys2Proof.Machine

/-- The word of a truth value: 1 if true, else 0 (R130, R131). -/
def truthWord (b : Bool) : Word := if b then 1 else 0

/-- LT's result: the signed comparison of the two words as integers (R130). -/
def ltW (a b : Word) : Word := truthWord (decide (a.toInt < b.toInt))

/-- EQ's result: equality of the two words as integers (R131). -/
def eqW (a b : Word) : Word := truthWord (decide (a.toInt = b.toInt))

/-- JNZ's condition (R120). -/
def isNonZero (c : Word) : Bool := decide (c.toInt ≠ 0)

/-- JZ's condition (R121). -/
def isZero (c : Word) : Bool := decide (c.toInt = 0)

end Sys2Proof.Machine
end

