-- ==== Sys2Proof/Machine/Compare.lean ====
section
/-! DEFINITION. The comparison instructions (44_compare.md). -/

namespace Sys2Proof.Machine

/-- LT (R130): `mem[p2] <- (1 if value(0) < value(1) else 0); ip <- ip + 4`. -/
def execLt (a b : Operand) (dst : Word) (s : State) : Host.Outcome State Fault Refusal :=
  binaryStore ltW a b dst s

/-- EQ (R131): `mem[p2] <- (1 if value(0) = value(1) else 0); ip <- ip + 4`. -/
def execEq (a b : Operand) (dst : Word) (s : State) : Host.Outcome State Fault Refusal :=
  binaryStore eqW a b dst s

end Sys2Proof.Machine
end

