-- ==== Sys2Proof/Machine/Halt.lean ====
section
/-! DEFINITION. The halt instruction (45_halt.md). -/

namespace Sys2Proof.Machine

/-- HALT (R140): `status <- Halted`; `mem`, `io` and `ip` keep their values. -/
def execHalt (s : State) : Host.Outcome State Fault Refusal :=
  .next (s.setStatus .halted)

end Sys2Proof.Machine
end

