-- ==== Sys2Proof/Machine/InputOutput.lean ====
section
/-! DEFINITION. The input and output instructions (42_io.md); both use the one register `io` (R112). -/

namespace Sys2Proof.Machine

/-- IN (R110): `mem[p0] <- io; ip <- ip + 2`; `io` is read and not changed. -/
def execInp (dst : Word) (s : State) : Host.Outcome State Fault Refusal :=
  storeAndAdvance dst s.io 1 s

/-- OUT (R111): `io <- value(0); ip <- ip + 2`. -/
def execOut (src : Operand) (s : State) : Host.Outcome State Fault Refusal :=
  attempt s (value src s) fun v => .next ((s.setIo v).advance 1)

end Sys2Proof.Machine
end

