-- ==== Sys2Proof/Machine/Jump.lean ====
section
/-! DEFINITION. The conditional jumps (43_jump.md). -/

namespace Sys2Proof.Machine

/-- JNZ (R120): `if value(0) ≠ 0 then ip <- value(1) else ip <- ip + 3`. -/
def execJnz (cond target : Operand) (s : State) : Host.Outcome State Fault Refusal :=
  conditionalJump isNonZero cond target s

/-- JZ (R121): `if value(0) = 0 then ip <- value(1) else ip <- ip + 3`. -/
def execJz (cond target : Operand) (s : State) : Host.Outcome State Fault Refusal :=
  conditionalJump isZero cond target s

end Sys2Proof.Machine
end

