-- ==== Sys2Proof/Decode.lean ====
section
/-! DEFINITION. The decoder, total on every list of words, and the encoder (30_encoding.md). The encoding
is decimal: fields are decimal digits of the instruction word's value (R6, R61, R62). -/

namespace Sys2Proof

/-- Why words decode to no instruction: the opcode is not supported (R67, R68), a mode digit is not 0 or
1 (R69), or the parameter words are not all there (R46). -/
inductive DecodeError where
  | unknownOpcode
  | unknownParameterMode
  | truncated
  deriving DecidableEq, Repr

/-- What the instruction word says (R72): the opcode and the mode of each of its parameters. -/
structure Header where
  op : Opcode
  modes : List Mode
  deriving DecidableEq, Repr

/-- `digit_k(v)`, the k-th decimal digit of v, the least significant being k = 0 (R6). -/
def digit (k v : Nat) : Nat := v / 10 ^ k % 10

/-- The opcode of a number, where the number is supported (R65, R67). -/
def opcodeOfNumber : Nat → Option Opcode
  | 1 => some .add
  | 2 => some .mul
  | 3 => some .inp
  | 4 => some .out
  | 5 => some .jnz
  | 6 => some .jz
  | 7 => some .lt
  | 8 => some .eq
  | 99 => some .halt
  | _ => none

/-- The number of an opcode (Table E2, R65). -/
def opcodeNumber : Opcode → Nat
  | .add => 1
  | .mul => 2
  | .inp => 3
  | .out => 4
  | .jnz => 5
  | .jz => 6
  | .lt => 7
  | .eq => 8
  | .halt => 99

/-- The role of each parameter of an opcode, in order (Table E2, R65). -/
def paramRoles : Opcode → List Role
  | .add => [.value, .value, .write]
  | .mul => [.value, .value, .write]
  | .inp => [.write]
  | .out => [.value]
  | .jnz => [.value, .value]
  | .jz => [.value, .value]
  | .lt => [.value, .value, .write]
  | .eq => [.value, .value, .write]
  | .halt => []

/-- The parameter count n of an opcode (R60, R65). -/
def paramCount (op : Opcode) : Nat := (paramRoles op).length

/-- Every decimal digit of the mode field is 0 or 1 (R69, D6; log 9): the digits of the write parameters
and those beyond the parameter count too. -/
def modeDigitsValid (modes : Nat) : Bool :=
  (List.range Config.modeDigits).all fun k => decide (digit k modes ≤ 1)

/-- The mode a valid digit selects (R62). -/
def modeOfDigit (d : Nat) : Mode := if d = 1 then .immediate else .position

/-- The digit of a mode (R62). -/
def modeDigit : Mode → Nat
  | .position => 0
  | .immediate => 1

/-- `mode(i) = digit_i(w div 100)` for each parameter i (R62, R63); digits beyond the parameter count
select nothing (R69, D7; log 10). -/
def modesOf (op : Opcode) (modes : Nat) : List Mode :=
  (List.range (paramCount op)).map fun i => modeOfDigit (digit i modes)

/-- The decoder of the instruction word (R72): a negative word first (R68, D4; log 7), then the opcode
(R67), then the mode digits (R69); the order is D5 (log 8). -/
def decodeWord (w : Word) : Except DecodeError Header :=
  if w.toInt < 0 then .error .unknownOpcode
  else
    match opcodeOfNumber (w.toNat % 100) with
    | none => .error .unknownOpcode
    | some op =>
      if modeDigitsValid (w.toNat / 100) then .ok ⟨op, modesOf op (w.toNat / 100)⟩
      else .error .unknownParameterMode

/-- A parameter word under a mode (R84). -/
def operandOf (m : Mode) (w : Word) : Operand :=
  match m with
  | .position => .position w
  | .immediate => .immediate w

/-- Parameter i as a value parameter: its mode and its raw word (R84). -/
def valueParam (h : Header) (p : List Word) (i : Nat) : Operand :=
  operandOf (h.modes.getD i .position) (p.getD i 0)

/-- Parameter i as a write parameter: its raw word, whatever its mode (R70, R86). -/
def writeParam (p : List Word) (i : Nat) : Word := p.getD i 0

/-- The instruction that a decoded instruction word and its parameter words `p[0..n−1]` make (R64,
Table E1). -/
def assemble (h : Header) (p : List Word) : Instr :=
  match h.op with
  | .add => .add (valueParam h p 0) (valueParam h p 1) (writeParam p 2)
  | .mul => .mul (valueParam h p 0) (valueParam h p 1) (writeParam p 2)
  | .inp => .inp (writeParam p 0)
  | .out => .out (valueParam h p 0)
  | .jnz => .jnz (valueParam h p 0) (valueParam h p 1)
  | .jz => .jz (valueParam h p 0) (valueParam h p 1)
  | .lt => .lt (valueParam h p 0) (valueParam h p 1) (writeParam p 2)
  | .eq => .eq (valueParam h p 0) (valueParam h p 1) (writeParam p 2)
  | .halt => .halt

/-- The decoder on words in memory order: the instruction at their front and the words after it (R60,
R72, R73). -/
def decode : List Word → Except DecodeError (Instr × List Word)
  | [] => .error .truncated
  | w :: rest =>
    match decodeWord w with
    | .error e => .error e
    | .ok h =>
      if rest.length < paramCount h.op then .error .truncated
      else .ok (assemble h (rest.take (paramCount h.op)), rest.drop (paramCount h.op))

/-- The opcode of an instruction. -/
def opcodeOf : Instr → Opcode
  | .add _ _ _ => .add
  | .mul _ _ _ => .mul
  | .inp _ => .inp
  | .out _ => .out
  | .jnz _ _ => .jnz
  | .jz _ _ => .jz
  | .lt _ _ _ => .lt
  | .eq _ _ _ => .eq
  | .halt => .halt

/-- The mode of a value parameter. -/
def operandMode : Operand → Mode
  | .position _ => .position
  | .immediate _ => .immediate

/-- The raw parameter word of a value parameter. -/
def operandRaw : Operand → Word
  | .position a => a
  | .immediate v => v

/-- The mode field whose digits are these modes, least significant first (R62). -/
def modeField : List Mode → Nat
  | [] => 0
  | m :: ms => modeDigit m + 10 * modeField ms

/-- The instruction word of an opcode with these modes (R61, R62). -/
def headWord (op : Opcode) (modes : List Mode) : Word :=
  BitVec.ofNat 64 (opcodeNumber op + 100 * modeField modes)

/-- Format A: two value parameters and a write parameter, whose mode digit is written 0 (R64, R71). -/
def encodeA (op : Opcode) (a b : Operand) (dst : Word) : List Word :=
  [headWord op [operandMode a, operandMode b, .position], operandRaw a, operandRaw b, dst]

/-- Format J: two value parameters (R64). -/
def encodeJ (op : Opcode) (a b : Operand) : List Word :=
  [headWord op [operandMode a, operandMode b], operandRaw a, operandRaw b]

/-- The words of an instruction in memory order: its canonical encoding (R64, R71). -/
def encode : Instr → List Word
  | .add a b d => encodeA .add a b d
  | .mul a b d => encodeA .mul a b d
  | .inp d => [headWord .inp [.position], d]
  | .out a => [headWord .out [operandMode a], operandRaw a]
  | .jnz a b => encodeJ .jnz a b
  | .jz a b => encodeJ .jz a b
  | .lt a b d => encodeA .lt a b d
  | .eq a b d => encodeA .eq a b d
  | .halt => [headWord .halt []]

/-- The words of an instruction given as one number: word k is bits 64k+63..64k of `w`, whose bits above
`nbits` are 0; four words, the longest instruction (R60; log 29). -/
def tableWords (nbits w : Nat) : List Word :=
  (List.range 4).map fun k => BitVec.ofNat 64 (w % 2 ^ nbits / 2 ^ (64 * k))

/-- The instruction this decoder reads from an instruction whose bits are `w` (log 29). -/
def decodeTableWord (nbits w : Nat) : Option Instr :=
  match decode (tableWords nbits w) with
  | .ok (i, _) => some i
  | .error _ => none

end Sys2Proof
end

