-- ==== Sys2Proof/Machine/Fetch.lean ====
section
/-! DEFINITION. The phases before operand resolution: fetch, decode, parameter fetch
(40_execution_cycle.md R81 to R83). -/

namespace Sys2Proof.Machine

/-- The run error of a decode error (R152, R153); missing parameter words are out of bounds (R46). -/
def runErrorOf : DecodeError → RunError
  | .unknownOpcode => .unknownOpcode
  | .unknownParameterMode => .unknownParameterMode
  | .truncated => .outOfBounds

/-- The parameter fetch `MemRead(ip + 1, n)` of a decoded word, and the instruction they make (R83). -/
def fetchParams (s : State) (h : Header) : Except RunError Instr :=
  match s.toImage.slice (s.ip.toInt + 1) (paramCount h.op) with
  | .error e => .error e
  | .ok p => .ok (assemble h p)

/-- The instruction at `ip`, or the first error of fetch (R81), decode (R82) and parameter fetch (R83), in
that order (R155). -/
def fetch (s : State) : Except RunError Instr :=
  match s.toImage.read s.ip.toInt with
  | .error e => .error e
  | .ok w =>
    match decodeWord w with
    | .error e => .error (runErrorOf e)
    | .ok h => fetchParams s h

end Sys2Proof.Machine
end

