-- ==== Sys2Proof/Machine/Step.lean ====
section
/-! DEFINITION. One step of the core (40_execution_cycle.md R80, R90), and the placing of an instruction
where the next step fetches it. -/

namespace Sys2Proof.Machine

/-- A step, defined only when `status` is `Running` (R80): fetch, decode and parameter fetch, then the
instruction's effect. In a terminal status there is no step (R26, R91; log 6). -/
def step (s : State) : Host.Outcome State Fault Refusal :=
  match s.status with
  | .running => attempt s (fetch s) fun i => exec i s
  | .halted => .fault .halted
  | .failed kind => .fault (.failed kind)

/-- Where `withFetchWord` places an instruction: `ip` where four words fit there, else address 0. -/
def fetchBase (s : State) : Nat :=
  if 0 ≤ s.ip.toInt ∧ s.ip.toInt + 4 ≤ (Config.lenMax : Int) then s.ip.toInt.toNat else 0

/-- A memory with words stored one after another from an address. -/
def storeAll : Memory → Nat → List Word → Memory
  | m, _, [] => m
  | m, a, w :: ws => storeAll (m.store a w) (a + 1) ws

/-- The state whose next step runs the instruction whose bits are `w` (log 4, log 29): its words stored at
`ip`, the image long enough to hold them, the run in progress. It stands for the host's load of a program;
`io` is not touched, and `ip` only where no four words fit at it. -/
def State.withFetchWord (s : State) (nbits w : Nat) : State :=
  { len := max s.len (fetchBase s + 4)
    mem := storeAll s.mem (fetchBase s) (tableWords nbits w)
    ip := BitVec.ofNat 64 (fetchBase s)
    io := s.io
    status := .running }

end Sys2Proof.Machine
end

