-- ==== Sys2Proof/Machine/Cores.lean ====
section
/-! DEFINITION. Several cores side by side (60_exceptions.md R164): the product of independent single-core
models; which core steps next is not the machine's (log 25). -/

namespace Sys2Proof.Machine

/-- Core k of the list takes one step of its own; no other core is looked at or changed (R164). -/
def stepCore (k : Nat) (cores : List State) : Host.Outcome (List State) Fault Refusal :=
  match cores[k]? with
  | none => .refused .noSuchCore
  | some s =>
    match step s with
    | .next t => .next (cores.set k t)
    | .fault f => .fault f
    | .refused r => .refused r

end Sys2Proof.Machine
end

