-- ==== Sys2Proof/Machine/Utf8.lean ====
section
/-! DEFINITION. Reading the bytes of a program literal as UTF-8 characters (20_memory.md R54: "UTF-8 text";
the form of UTF-8 is PRESUMED, the standard one, log 32). -/

namespace Sys2Proof.Machine

/-- A character whose first bytes have been read: how many bytes are still to come, the bits read so far, and
the least code point that takes this many bytes. -/
structure Utf8Pending where
  more : Nat
  bits : Nat
  least : Nat
  deriving DecidableEq, Repr

/-- What the first byte of a character begins: 0xxxxxxx, 110xxxxx, 1110xxxx or 11110xxx; no other byte begins
one. -/
def utf8Start (b : Byte) : Option Utf8Pending :=
  if b.toNat < 0x80 then some { more := 0, bits := b.toNat, least := 0 }
  else if b.toNat < 0xC0 then none
  else if b.toNat < 0xE0 then some { more := 1, bits := b.toNat - 0xC0, least := 0x80 }
  else if b.toNat < 0xF0 then some { more := 2, bits := b.toNat - 0xE0, least := 0x800 }
  else if b.toNat < 0xF8 then some { more := 3, bits := b.toNat - 0xF0, least := 0x10000 }
  else none

/-- One more byte of a character, 10xxxxxx: six more bits. -/
def Utf8Pending.next (p : Utf8Pending) (b : Byte) : Option Utf8Pending :=
  if 0x80 ≤ b.toNat ∧ b.toNat < 0xC0 then
    some { more := p.more - 1, bits := p.bits * 64 + (b.toNat - 0x80), least := p.least }
  else none

/-- What one byte makes of what was read before it, inside a character (`some p`) or between two (`none`). -/
def utf8Next (pending : Option Utf8Pending) (b : Byte) : Option Utf8Pending :=
  match pending with
  | none => utf8Start b
  | some p => p.next b

/-- The character of a code point: not in a longer form than it needs, no surrogate, at most 10FFFF. -/
def Utf8Pending.char (p : Utf8Pending) : Option Char :=
  if p.least ≤ p.bits ∧ p.bits.isValidChar then some (Char.ofNat p.bits) else none

/-- The characters of a sequence of bytes that goes on from `pending`. -/
def utf8From : Option Utf8Pending → List Byte → Option (List Char)
  | none, [] => some []
  | some _, [] => none
  | pending, b :: bs =>
    match utf8Next pending b with
    | none => none
    | some q =>
      if q.more = 0 then
        match q.char, utf8From none bs with
        | some c, some cs => some (c :: cs)
        | _, _ => none
      else utf8From (some q) bs

/-- The characters of a sequence of bytes, or none if it is not UTF-8. -/
def utf8Decode (bytes : List Byte) : Option (List Char) := utf8From none bytes

end Sys2Proof.Machine
end

