-- ==== Sys2Proof/Machine/Loader.lean ====
section
/-! DEFINITION. The program-literal loader `parse` (20_memory.md R54; token grammar D3, log 22) and the four
error kinds with their codes (60_exceptions.md R150). -/

namespace Sys2Proof.Machine

/-- The four error kinds of Table X1 (R150). `malformedLiteral` arises in the loader only and never in
`status` (R154). -/
inductive ErrorKind where
  | malformedLiteral
  | run (kind : RunError)
  deriving DecidableEq, Repr

/-- The spec's own numeric code of an error kind (Table X1, D13; log 16); 0 is no error. -/
def errorCode : ErrorKind → Nat
  | .malformedLiteral => 1
  | .run .outOfBounds => 2
  | .run .unknownOpcode => 3
  | .run .unknownParameterMode => 4

/-- The white space removed at the end of the whole text (R54). -/
def isTrailing (c : Char) : Bool := c == ' ' || c == '\t' || c == '\r' || c == '\n'

/-- The text without its trailing white space (R54). -/
def stripTrailing (t : List Char) : List Char := (t.reverse.dropWhile isTrailing).reverse

/-- Split at every comma (R54): always at least one token. -/
def splitCommas : List Char → List (List Char)
  | [] => [[]]
  | c :: t =>
    if c = ',' then [] :: splitCommas t
    else
      match splitCommas t with
      | [] => [[c]]
      | tok :: rest => (c :: tok) :: rest

/-- A decimal digit 0 to 9. -/
def isDecimal (c : Char) : Bool := decide (48 ≤ c.toNat) && decide (c.toNat ≤ 57)

/-- The number of a sequence of decimal digits, most significant first. -/
def decimalValue (ds : List Char) : Nat := ds.foldl (fun acc c => acc * 10 + (c.toNat - 48)) 0

/-- `[0-9]+`: one or more digits, leading zeros allowed (R54). -/
def parseDigits (ds : List Char) : Option Nat :=
  if ds ≠ [] ∧ ds.all isDecimal then some (decimalValue ds) else none

/-- `-?[0-9]+` (R54). -/
def parseNumber : List Char → Option Int
  | '-' :: ds => (parseDigits ds).map fun (n : Nat) => -(n : Int)
  | ds => (parseDigits ds).map fun (n : Nat) => (n : Int)

/-- A token is a number in `WORD_MIN` to `WORD_MAX` (R54). -/
def parseToken (t : List Char) : Option Word :=
  match parseNumber t with
  | none => none
  | some v => if Config.wordMin ≤ v ∧ v ≤ Config.wordMax then some (wrapW v) else none

/-- Every token, or none of them: no partial image is usable (R54). -/
def parseTokens : List (List Char) → Option (List Word)
  | [] => some []
  | t :: ts =>
    match parseToken t, parseTokens ts with
    | some w, some ws => some (w :: ws)
    | _, _ => none

/-- `parse(text)` of the text's characters: the words of a program literal, or `MalformedLiteral` (R54, R154). -/
def parse (text : List Char) : Except ErrorKind (List Word) :=
  match parseTokens (splitCommas (stripTrailing text)) with
  | some ws => .ok ws
  | none => .error .malformedLiteral

/-- `parse(text)` of the text's bytes (R54). Bytes that are no UTF-8 are no sequence of commas, trailing white
space and tokens `-?[0-9]+`, so they are `MalformedLiteral` (DEDUCED, log 32). -/
def parseBytes (bytes : List Byte) : Except ErrorKind (List Word) :=
  match utf8Decode bytes with
  | some text => parse text
  | none => .error .malformedLiteral

/-- The memory that holds these words from address k on, in canonical form. -/
def Memory.fromWords : Nat → List Word → Memory
  | _, [] => []
  | k, w :: ws => Memory.push k w (Memory.fromWords (k + 1) ws)

/-- The image of a list of words: `len` is their number, `mem[k]` is word k (R54). -/
def Image.fromWords (ws : List Word) : Image :=
  { len := ws.length, mem := Memory.fromWords 0 ws }

/-- An image longer than `LEN_MAX` is refused (R5, D16, U12; log 19). -/
def loadWords (ws : List Word) : Except Refusal Image :=
  if ws.length ≤ Config.lenMax then .ok (Image.fromWords ws) else .error .imageTooLong

end Sys2Proof.Machine
end

