-- ==== Sys2Proof/Machine/HostPort.lean ====
section
/-! DEFINITION. The host's side at transaction level (70_reset_and_hazards.md R190, Table H1; D18, log 21), the
end of a run and its result (R183), and the run loop under fuel (40_execution_cycle.md R91, R188). -/

namespace Sys2Proof.Machine

/-- One core as the host meets it: an image that no run has entered yet, where `ip`, `io` and `status` hold
no value (R32, D15; log 18), or a core that a run has entered. -/
inductive Platform where
  | loaded (img : Image)
  | entered (s : State)
  deriving DecidableEq, Repr

/-- The image of a core. -/
def Platform.image : Platform → Image
  | .loaded img => img
  | .entered s => s.toImage

/-- The core with its image replaced. -/
def Platform.withImage (img : Image) : Platform → Platform
  | .loaded _ => .loaded img
  | .entered s => .entered (s.withImage img)

/-- A run is in progress (R183, R190): entered and still `Running`. -/
def Platform.busy : Platform → Bool
  | .loaded _ => false
  | .entered s => decide (s.status = .running)

/-- The host's transactions (R190, Table H1). -/
inductive Transaction where
  | parse (bytes : List Byte)
  | read (a : Int)
  | write (a : Int) (v : Word)
  | slice (a : Int) (n : Nat)
  | clone
  | run (input : Int)
  deriving DecidableEq, Repr

/-- What the host gets back (Table H1). -/
inductive Response where
  /-- A new core with its own image (parse, clone); it shares nothing with any other (R56). -/
  | made (img : Image)
  | word (w : Word)
  | words (ws : List Word)
  | done
  /-- The run has been entered; its result is `runResult` once it is over (R183). -/
  | entered
  | error (kind : ErrorKind)
  deriving DecidableEq, Repr

/-- `parse` as a transaction (Table H1, R54) on the bytes of the text: a new image, whose core is
`Platform.loaded` of it. -/
def hostParse (bytes : List Byte) : Except Refusal Response :=
  match parseBytes bytes with
  | .error k => .ok (.error k)
  | .ok ws =>
    match loadWords ws with
    | .error r => .error r
    | .ok img => .ok (.made img)

/-- The host's bounds-checked `read` (R55, R41). -/
def hostRead (a : Int) (img : Image) : Response :=
  match img.read a with
  | .ok w => .word w
  | .error e => .error (.run e)

/-- The host's bounds-checked `slice` (R55, R43). -/
def hostSlice (a : Int) (n : Nat) (img : Image) : Response :=
  match img.slice a n with
  | .ok ws => .words ws
  | .error e => .error (.run e)

/-- The host's bounds-checked `write` (R55, R42): a construction-time patch, or a write between runs (D26).
An error is returned to the host and is no run failure. -/
def hostWrite (a : Int) (v : Word) (p : Platform) : Platform × Response :=
  match p.image.write a v with
  | .ok img => (p.withImage img, .done)
  | .error e => (p, .error (.run e))

/-- `run(input)` up to its entry (R180, R181, R184): the input must be a word (D23; log 23). -/
def hostRun (input : Int) (p : Platform) : Except Refusal (Platform × Response) :=
  if Config.wordMin ≤ input ∧ input ≤ Config.wordMax then
    .ok (.entered (runEntry p.image (wrapW input)), .entered)
  else .error .inputOutOfRange

/-- A transaction of Table H1: `parse` at any time, the others only while no run is in progress (R190,
U11; log 21). -/
def transact (t : Transaction) (p : Platform) : Except Refusal (Platform × Response) :=
  match t with
  | .parse bytes =>
    match hostParse bytes with
    | .error r => .error r
    | .ok resp => .ok (p, resp)
  | .read a => if p.busy then .error .runInProgress else .ok (p, hostRead a p.image)
  | .write a v => if p.busy then .error .runInProgress else .ok (hostWrite a v p)
  | .slice a n => if p.busy then .error .runInProgress else .ok (p, hostSlice a n p.image)
  | .clone => if p.busy then .error .runInProgress else .ok (p, .made p.image)
  | .run input => if p.busy then .error .runInProgress else hostRun input p

/-- The result of a run (R183): nothing while it runs; `io` on `Halted`; the error kind on `Failed`, with no
output value (R158, D12; log 15). -/
def runResult (s : State) : Option (Except ErrorKind Word) :=
  match s.status with
  | .running => none
  | .halted => some (.ok s.io)
  | .failed k => some (.error (.run k))

/-- The run loop for at most `fuel` steps (R91): it ends where no step is defined. The fuel is no part of
the machine (R188). -/
def runLoop : Nat → State → State
  | 0, s => s
  | fuel + 1, s =>
    match step s with
    | .next t => runLoop fuel t
    | .fault _ => s
    | .refused _ => s

end Sys2Proof.Machine
end

