-- ==== Sys2Proof/Safety.lean ====
section
/-! DEFINITION. What the statements are said in: the invariant of the state, operands that resolve and
addresses that can be written, and the rest of the state an instruction leaves alone. -/

namespace Sys2Proof.Machine

/-- The image is in canonical form, lists only addresses of the image, and is no longer than `LEN_MAX`
(R22, R40, D16). -/
abbrev Image.Inv (img : Image) : Prop :=
  img.mem.wf ∧ (∀ c ∈ img.mem, c.1 < img.len) ∧ img.len ≤ Config.lenMax

/-- The invariant of the state. -/
abbrev State.Inv (s : State) : Prop := s.toImage.Inv

/-- A value parameter resolves (R84, R151 (c)): immediate always, position when its address is in the
image. -/
def resolves (o : Operand) (s : State) : Bool :=
  match o with
  | .position a => decide (s.InBounds a.toInt)
  | .immediate _ => true

/-- A value parameter that resolves. -/
abbrev Readable (o : Operand) (s : State) : Prop := resolves o s = true

/-- A write parameter whose address is in the image (R86, R151 (d)). -/
abbrev Writable (dst : Word) (s : State) : Prop := s.InBounds dst.toInt

/-- The word a resolvable value parameter stands for (R84). -/
def operandWord (o : Operand) (s : State) : Word :=
  match o with
  | .position a => s.word a.toInt.toNat
  | .immediate v => v

/-- Every word of memory reads the same, and the image has the same length. -/
def SameImage (s t : State) : Prop := t.len = s.len ∧ ∀ k, t.word k = s.word k

/-- Memory after a store of `v` at the write parameter `dst`: that word is `v`, every other word reads as
before, and the length is the same (R42). -/
def Stored (dst v : Word) (s t : State) : Prop :=
  t.len = s.len ∧ t.word dst.toInt.toNat = v ∧ ∀ k, k ≠ dst.toInt.toNat → t.word k = s.word k

/-- The write parameter of an instruction that stores to memory (R21, C4): ADD, MUL, IN, LT, EQ. -/
def destinationOf : Instr → Option Word
  | .add _ _ dst => some dst
  | .mul _ _ dst => some dst
  | .inp dst => some dst
  | .out _ => none
  | .jnz _ _ => none
  | .jz _ _ => none
  | .lt _ _ dst => some dst
  | .eq _ _ dst => some dst
  | .halt => none

/-- The run is over (R183): the status is terminal. -/
abbrev Over (s : State) : Prop := s.status ≠ .running

end Sys2Proof.Machine
end

