-- ==== Sys2Proof/WellFormed.lean ====
section
/-! DEFINITION. Well-formed encodings: the canonical instruction words of 30_encoding.md R71. A term of
Instr needs no check of its own: its type admits exactly the operand forms of Table E1, every parameter
word is any word (R66), and whether an address is inside the image is a matter of the state, not of the
instruction. -/

namespace Sys2Proof

/-- R71's first check: w ≥ 0. -/
def canonicalSign (w : Word) : Bool := decide (0 ≤ w.toInt)

/-- R71's check of one mode digit: 0 or 1 for a value parameter, 0 for a write parameter. -/
def canonicalDigit (r : Role) (d : Nat) : Bool :=
  match r with
  | .value => decide (d ≤ 1)
  | .write => decide (d = 0)

/-- R71's check of the mode field against the roles of the parameters, least significant digit first;
after the last parameter nothing may be left, which is `w div 100 < 10^n`. -/
def canonicalModes : List Role → Nat → Bool
  | [], m => decide (m = 0)
  | r :: rs, m => canonicalDigit r (m % 10) && canonicalModes rs (m / 10)

/-- An instruction word is canonical (R71): not negative, of a supported opcode, with no digit beyond the
parameter count, every value digit 0 or 1 and every write digit 0. -/
def canonicalWord (w : Word) : Bool :=
  canonicalSign w &&
    match opcodeOfNumber (w.toNat % 100) with
    | none => false
    | some op => canonicalModes (paramRoles op) (w.toNat / 100)

/-- Words that encode one instruction canonically: a canonical instruction word and exactly its
parameter words (R60, R71). -/
def canonicalEncoding : List Word → Bool
  | [] => false
  | w :: ps =>
    canonicalWord w &&
      match opcodeOfNumber (w.toNat % 100) with
      | none => false
      | some op => decide (ps.length = paramCount op)

/-- An instruction is well formed when its words are a canonical encoding. Every term of Instr is, by
its type. -/
def Instr.wellFormed (i : Instr) : Bool := canonicalEncoding (encode i)

end Sys2Proof
end

