-- ==== Sys2Proof/Certificates/Slice0/Obligations.lean ====
section
/-! DEFINITION. The statements for the provers, and the words they are said in: integers where the spec says
integers, and the step of 40_execution_cycle.md R90 written once more as the spec writes it. -/

namespace Sys2Proof.Claims

open Sys2Proof Sys2Proof.Machine

/-- `wrap_W` on the integers (R6): the value congruent to v modulo 2^64 in the word range. -/
def wrapInt (v : Int) : Int := v.bmod (2 ^ 64)

/-- The address of the instruction word. -/
def ipNat (s : State) : Nat := s.ip.toInt.toNat

/-- The instruction word w of a step (R81). -/
def instrWord (s : State) : Word := s.word (ipNat s)

/-- The raw parameter word `p[i]` of a step (R83). -/
def rawParam (s : State) (i : Nat) : Word := s.word (ipNat s + 1 + i)

/-- Parameter i of a step as a value parameter, its mode from the decimal digit i of `w div 100` (R62, R84). -/
def valueAt (s : State) (i : Nat) : Operand :=
  if digit i ((instrWord s).toNat / 100) = 1 then .immediate (rawParam s i) else .position (rawParam s i)

/-- The numbers of the supported opcodes (R65). -/
def supported : List Nat := [1, 2, 3, 4, 5, 6, 7, 8, 99]

/-- The state after an error entry (R156). -/
def failed (k : RunError) (s : State) : State := { s with status := .failed k }

/-- A running step finds at `ip` an instruction word w ≥ 0 with `w mod 100 = op`. -/
def Selects (op : Nat) (s : State) : Prop :=
  s.status = .running ∧ s.InBounds s.ip.toInt ∧ 0 ≤ (instrWord s).toInt ∧ (instrWord s).toNat % 100 = op

/-- Every decimal digit of the mode field is 0 or 1 (R69). -/
def DigitsValid (w : Word) : Prop := ∀ k, digit k (w.toNat / 100) ≤ 1

/-- What every step of an instruction of n parameters does before its operands (R69, R83): a digit 2 to 9 is
`UnknownParameterMode`, and missing parameter words are `OutOfBounds`. -/
def ChecksBefore (n : Nat) (s : State) : Prop :=
  (¬ DigitsValid (instrWord s) → step s = .next (failed .unknownParameterMode s)) ∧
    (DigitsValid (instrWord s) → 1 ≤ n → (s.len : Int) < s.ip.toInt + 1 + n →
      step s = .next (failed .outOfBounds s))

/-- A step passes those checks. -/
def Fetched (n : Nat) (s : State) : Prop :=
  DigitsValid (instrWord s) ∧ s.ip.toInt + 1 + n ≤ (s.len : Int)

/-- The canonical instruction words of an opcode number are these (R71). -/
def CanonicalOf (op : Nat) (ws : List Int) : Prop :=
  ∀ w : Word, (canonicalWord w = true ∧ w.toNat % 100 = op) ↔ w.toInt ∈ ws

/-- The rule of a format A instruction (R64) that stores the integer `f` of its two values. -/
def RuleA (op : Nat) (f : Int → Int → Int) : Prop :=
  ∀ s : State, s.Inv → Selects op s →
    ChecksBefore 3 s ∧
    (Fetched 3 s → ¬ (Readable (valueAt s 0) s ∧ Readable (valueAt s 1) s ∧ Writable (rawParam s 2) s) →
      step s = .next (failed .outOfBounds s)) ∧
    (Fetched 3 s → Readable (valueAt s 0) s → Readable (valueAt s 1) s → Writable (rawParam s 2) s →
      ∃ t, step s = .next t ∧ t.len = s.len ∧
        (t.word (rawParam s 2).toInt.toNat).toInt =
          f (operandWord (valueAt s 0) s).toInt (operandWord (valueAt s 1) s).toInt ∧
        (∀ k, k ≠ (rawParam s 2).toInt.toNat → t.word k = s.word k) ∧
        t.ip.toInt = s.ip.toInt + 4 ∧ t.io = s.io ∧ t.status = .running)

/-- The rule of a format J instruction (R64) that jumps when `taken` of its condition. -/
def RuleJ (op : Nat) (taken : Int → Prop) : Prop :=
  ∀ s : State, s.Inv → Selects op s →
    ChecksBefore 2 s ∧
    (Fetched 2 s → ¬ (Readable (valueAt s 0) s ∧ Readable (valueAt s 1) s) →
      step s = .next (failed .outOfBounds s)) ∧
    (Fetched 2 s → Readable (valueAt s 0) s → Readable (valueAt s 1) s →
      ∃ t, step s = .next t ∧ SameImage s t ∧ t.io = s.io ∧ t.status = .running ∧
        (taken (operandWord (valueAt s 0) s).toInt → t.ip = operandWord (valueAt s 1) s) ∧
        (¬ taken (operandWord (valueAt s 0) s).toInt → t.ip.toInt = s.ip.toInt + 3))

/-- The state of R90's pseudocode: integers, and the image as the sequence it is (R10). -/
structure PState where
  mem : List Int
  ip : Int
  io : Int
  status : RunStatus

/-- The state of the model as the pseudocode sees it. -/
def pview (s : State) : PState :=
  { mem := (List.range s.len).map fun k => (s.word k).toInt
    ip := s.ip.toInt
    io := s.io.toInt
    status := s.status }

/-- `MemRead(a, 1)` of the pseudocode. -/
def pread (m : List Int) (a : Int) : Option Int := if 0 ≤ a then m[a.toNat]? else none

/-- How many value parameters and write parameters an opcode number has (Table E2). -/
def pparams : Nat → Option (Nat × Nat)
  | 1 => some (2, 1)
  | 2 => some (2, 1)
  | 3 => some (0, 1)
  | 4 => some (1, 0)
  | 5 => some (2, 0)
  | 6 => some (2, 0)
  | 7 => some (2, 1)
  | 8 => some (2, 1)
  | 99 => some (0, 0)
  | _ => none

/-- `raise <Kind>` of the pseudocode (R156). -/
def pfail (k : RunError) (p : PState) : PState := { p with status := .failed k }

/-- A store and the default advance of the pseudocode. -/
def pstore (dst v n : Int) (p : PState) : PState :=
  { p with mem := p.mem.set dst.toNat v, ip := p.ip + 1 + n }

/-- The dispatch of R90: the effect of opcode `op` on the values v0, v1 and the write parameter `dst`. -/
def peffect (op : Nat) (v0 v1 dst : Int) (p : PState) : PState :=
  match op with
  | 1 => pstore dst (wrapInt (v0 + v1)) 3 p
  | 2 => pstore dst (wrapInt (v0 * v1)) 3 p
  | 3 => pstore dst p.io 1 p
  | 4 => { p with io := v0, ip := p.ip + 2 }
  | 5 => if v0 ≠ 0 then { p with ip := v1 } else { p with ip := p.ip + 3 }
  | 6 => if v0 = 0 then { p with ip := v1 } else { p with ip := p.ip + 3 }
  | 7 => pstore dst (if v0 < v1 then 1 else 0) 3 p
  | 8 => pstore dst (if v0 = v1 then 1 else 0) 3 p
  | _ => { p with status := .halted }

/-- The step of R90 from the decoded opcode on: parameter fetch, values, write address, dispatch. -/
def poperands (op modes nv nw : Nat) (p : PState) : PState :=
  let raw (i : Nat) : Int := (pread p.mem (p.ip + 1 + i)).getD 0
  let val (i : Nat) : Option Int := if modes / 10 ^ i % 10 = 1 then some (raw i) else pread p.mem (raw i)
  if 1 ≤ nv + nw ∧ (p.mem.length : Int) < p.ip + 1 + (nv + nw : Nat) then pfail .outOfBounds p
  else if (∃ i < nv, val i = none) then pfail .outOfBounds p
  else if nw = 1 ∧ pread p.mem (raw nv) = none then pfail .outOfBounds p
  else peffect op ((val 0).getD 0) ((val 1).getD 0) (raw nv) p

/-- The step of R90, for `status` = `Running`. -/
def pstep (p : PState) : PState :=
  match pread p.mem p.ip with
  | none => pfail .outOfBounds p
  | some w =>
    if w < 0 then pfail .unknownOpcode p
    else
      match pparams (w.toNat % 100) with
      | none => pfail .unknownOpcode p
      | some (nv, nw) =>
        if ∃ d ∈ Nat.digits 10 (w.toNat / 100), 2 ≤ d then pfail .unknownParameterMode p
        else poperands (w.toNat % 100) (w.toNat / 100) nv nw p

/-- The decimal numeral of a word, as a program literal writes it (R54). -/
def renderWord (w : Word) : List Char :=
  if w.toInt < 0 then '-' :: Nat.toDigits 10 w.toInt.natAbs else Nat.toDigits 10 w.toInt.toNat

/-- The program literal of a list of words (R54, R74). -/
def renderLiteral : List Word → List Char
  | [] => []
  | [w] => renderWord w
  | w :: ws => renderWord w ++ ',' :: renderLiteral ws

/-- A token that R54's grammar `-?[0-9]+` accepts, with its value: one or more decimal digits, most significant
first, after at most one `-`; the value is a word's, so it lies in the word range (D3, log 22). -/
def Denotes (tok : List Char) (w : Word) : Prop :=
  ∃ ds : List (Fin 10), ds ≠ [] ∧
    ((tok = ds.map (fun d : Fin 10 => Nat.digitChar d.val) ∧ w.toInt = (Nat.ofDigits 10 (ds.reverse.map Fin.val) : Nat)) ∨
      (tok = '-' :: ds.map (fun d : Fin 10 => Nat.digitChar d.val) ∧
        w.toInt = -((Nat.ofDigits 10 (ds.reverse.map Fin.val) : Nat) : Int)))

/-- A program literal of these words (R54): a comma between every two tokens, then spaces, tabs, carriage returns
and line feeds (D3, log 22). -/
def LiteralOf (text : List Char) (ws : List Word) : Prop :=
  ∃ (toks : List (List Char)) (blank : List Char), ws ≠ [] ∧ List.Forall₂ Denotes toks ws ∧
    (∀ c ∈ blank, c = ' ' ∨ c = '\t' ∨ c = '\r' ∨ c = '\n') ∧ text = [','].intercalate toks ++ blank

/-- The bytes of a text in UTF-8, as Lean's own library writes them (log 32). -/
def utf8 (text : List Char) : List Byte := text.flatMap fun c => (String.utf8EncodeChar c).map UInt8.toBitVec

end Sys2Proof.Claims

open Sys2Proof Sys2Proof.Machine Sys2Proof.Claims

/-! Encoding (30_encoding.md). -/

/-- R60, R64: the words the encoder writes decode to the instruction they encode, whatever follows them. -/
def Obligations.DecodeEncodeRoundTrip : Prop :=
  ∀ (i : Instr) (rest : List Word), decode (encode i ++ rest) = .ok (i, rest)

/-- R71: every canonical encoding decodes to an instruction whose words it is. -/
def Obligations.CanonicalEncodingRoundTrip : Prop :=
  ∀ ws : List Word, canonicalEncoding ws = true → ∃ i, decode ws = .ok (i, []) ∧ encode i = ws

/-- R71: the canonical instruction words are the 28 the spec lists. -/
def Obligations.CanonicalWordsAreTheListed : Prop :=
  ∀ w : Word, canonicalWord w = true ↔
    w.toInt ∈ [1, 101, 1001, 1101, 2, 102, 1002, 1102, 3, 4, 104, 5, 105, 1005, 1105, 6, 106, 1006, 1106,
      7, 107, 1007, 1107, 8, 108, 1008, 1108, 99]

/-- R61, R62, R64: words written out from the spec's encodings decode to their instructions. -/
def Obligations.SpecWordsDecode : Prop :=
  decode [1008, 21, 8, 20] = .ok (.eq (.position 21) (.immediate 8) 20, []) ∧
    decode [104, 999] = .ok (.out (.immediate 999), []) ∧
    decode [1005, 20, 22] = .ok (.jnz (.position 20) (.immediate 22), []) ∧
    decode [1101, 1000, 1, 20] = .ok (.add (.immediate 1000) (.immediate 1) 20, []) ∧
    decode [3, 21] = .ok (.inp 21, []) ∧ decode [99] = .ok (.halt, [])

/-- R72: the decoder of the instruction word, over every digit of the mode field. The order of the checks,
negative words and the digits checked are the spec's decisions D5, D4 and D6 (log 8, 7, 9); that valid digits beyond
the parameters are ignored is D7 (log 10). -/
def Obligations.DecoderFollowsItsRule : Prop :=
  ∀ w : Word,
    (w.toInt < 0 → decodeWord w = .error .unknownOpcode) ∧
    (0 ≤ w.toInt → w.toNat % 100 ∉ supported → decodeWord w = .error .unknownOpcode) ∧
    (0 ≤ w.toInt → w.toNat % 100 ∈ supported → ¬ DigitsValid w →
      decodeWord w = .error .unknownParameterMode) ∧
    (0 ≤ w.toInt → w.toNat % 100 ∈ supported → DigitsValid w →
      ∃ h, decodeWord w = .ok h ∧ opcodeNumber h.op = w.toNat % 100 ∧ h.modes.length = paramCount h.op ∧
        ∀ i < paramCount h.op,
          h.modes[i]? = some (if digit i (w.toNat / 100) = 1 then Mode.immediate else Mode.position))

/-- R67: an instruction word w ≥ 0 with an unsupported opcode enters `UnknownOpcode`, every op in 0, 9 to 98. -/
def Obligations.UnknownOpcodeFaults : Prop :=
  ∀ s : State, s.status = .running → s.InBounds s.ip.toInt → 0 ≤ (instrWord s).toInt →
    (instrWord s).toNat % 100 ∉ supported → step s = .next (failed .unknownOpcode s)

/-- R68, R69: a negative word enters `UnknownOpcode`, and a digit 2 to 9 anywhere in the mode field of a
supported opcode `UnknownParameterMode`, before any parameter is fetched. D4, D5, D6 (log 7, 8, 9). -/
def Obligations.OtherDecodeErrorsFault : Prop :=
  ∀ s : State, s.status = .running → s.InBounds s.ip.toInt →
    ((instrWord s).toInt < 0 → step s = .next (failed .unknownOpcode s)) ∧
    (0 ≤ (instrWord s).toInt → (instrWord s).toNat % 100 ∈ supported →
      (∃ k, 2 ≤ digit k ((instrWord s).toNat / 100)) → step s = .next (failed .unknownParameterMode s))

/-- R70: a write parameter's mode digit 0 or 1 gives the same instruction, and its raw word is the address. -/
def Obligations.WriteDigitIsIgnored : Prop :=
  ∀ (w : Word) (ps : List Word), 0 ≤ w.toInt →
    (w.toNat % 100 ∈ [1, 2, 7, 8] → digit 4 w.toNat = 0 →
      decode (BitVec.ofNat 64 (w.toNat + 10000) :: ps) = decode (w :: ps)) ∧
    (w.toNat % 100 = 3 → digit 2 w.toNat = 0 →
      decode (BitVec.ofNat 64 (w.toNat + 100) :: ps) = decode (w :: ps)) ∧
    (∀ i rest dst, decode (w :: ps) = .ok (i, rest) → destinationOf i = some dst →
      ps[paramCount (opcodeOf i) - 1]? = some dst)

/-- R69: digits 0 and 1 beyond the parameter count select nothing (the spec's decision D7, log 10). -/
def Obligations.ExtraDigitsSelectNothing : Prop :=
  ∀ (w : Word) (h : Header), decodeWord w = .ok h →
    decodeWord (BitVec.ofNat 64 (w.toNat % 10 ^ (paramCount h.op + 2))) = .ok h

/-! Memory (20_memory.md). -/

/-- R41: a read is bounds-checked, and inside the image it returns the word. -/
def Obligations.ReadIsBoundsChecked : Prop :=
  ∀ (img : Image) (a : Int),
    ((a < 0 ∨ (img.len : Int) ≤ a) → img.read a = .error .outOfBounds) ∧
    (0 ≤ a → a < (img.len : Int) → img.read a = .ok (img.word a.toNat))

/-- R42: a write is bounds-checked; inside the image that word changes and no other. -/
def Obligations.WriteChangesOneWord : Prop :=
  ∀ (img : Image) (a : Int) (v : Word), img.mem.wf →
    ((a < 0 ∨ (img.len : Int) ≤ a) → img.write a v = .error .outOfBounds) ∧
    (0 ≤ a → a < (img.len : Int) →
      ∃ img', img.write a v = .ok img' ∧ img'.len = img.len ∧ img'.word a.toNat = v ∧
        ∀ k, k ≠ a.toNat → img'.word k = img.word k)

/-- R43: a slice returns n contiguous words or fails whole; of no words it cannot fail (D17, log 20). -/
def Obligations.SliceIsContiguousOrFails : Prop :=
  ∀ (img : Image) (a : Int) (n : Nat),
    (1 ≤ n → (a < 0 ∨ (img.len : Int) < a + n) → img.slice a n = .error .outOfBounds) ∧
    (1 ≤ n → 0 ≤ a → a + n ≤ (img.len : Int) →
      ∃ ws, img.slice a n = .ok ws ∧ ws.length = n ∧ ∀ k < n, ws[k]? = some (img.word (a.toNat + k))) ∧
    img.slice a 0 = .ok []

/-- The canonical form of a memory (log 5): two memories in it that read the same are the same. -/
def Obligations.CanonicalMemoryIsUnique : Prop :=
  ∀ m m' : Memory, m.wf → m'.wf → (∀ a, m.lookup a = m'.lookup a) → m = m'

/-! The step (40_execution_cycle.md). -/

/-- R80 to R83: where the words at `ip` decode to an instruction, a running step is its effect. -/
def Obligations.StepRunsTheDecodedInstruction : Prop :=
  ∀ (s : State) (n : Nat) (ws rest : List Word) (i : Instr), s.status = .running →
    s.slice s.ip.toInt n = .ok ws → decode ws = .ok (i, rest) → step s = exec i s

/-- R81: an `ip` outside the image is `OutOfBounds` at fetch. -/
def Obligations.FetchOutsideImageFaults : Prop :=
  ∀ s : State, s.status = .running → (s.ip.toInt < 0 ∨ (s.len : Int) ≤ s.ip.toInt) →
    step s = .next (failed .outOfBounds s)

/-- R83: the parameter words are fetched as one slice after the instruction word, none for n = 0; if any lies
outside, the step is `OutOfBounds`. -/
def Obligations.ParameterFetchIsOneSlice : Prop :=
  ∀ (s : State) (h : Header), s.status = .running → s.InBounds s.ip.toInt →
    decodeWord (instrWord s) = .ok h →
    (1 ≤ paramCount h.op → (s.len : Int) < s.ip.toInt + 1 + paramCount h.op →
      step s = .next (failed .outOfBounds s)) ∧
    (1 ≤ paramCount h.op → s.ip.toInt + 1 + paramCount h.op ≤ (s.len : Int) →
      step s = exec (assemble h ((List.range (paramCount h.op)).map (rawParam s))) s) ∧
    (paramCount h.op = 0 → step s = exec (assemble h []) s)

/-- R89: a step that fails changes nothing but `status` (the spec's decision D11, log 14). -/
def Obligations.FailingStepChangesOnlyStatus : Prop :=
  ∀ (s t : State) (k : RunError), step s = .next t → t.status = .failed k → t = failed k s

/-- R80, R21: a step changes no word of memory but the one at its instruction's write parameter. -/
def Obligations.OnlyTheWriteParameterIsStored : Prop :=
  ∀ (s t : State) (k : Nat), s.mem.wf → step s = .next t → t.word k ≠ s.word k →
    ∃ i dst, fetch s = .ok i ∧ destinationOf i = some dst ∧ dst.toInt = (k : Int)

/-- R25, R29: only OUT changes `io`. -/
def Obligations.OnlyOutWritesIo : Prop :=
  ∀ s t : State, step s = .next t → t.io ≠ s.io → ∃ src, fetch s = .ok (.out src) ∧ t.io = operandWord src s

/-- R23: `ip` is written by run entry (0), by the default advance and by a taken jump, and by nothing else;
HALT and every failing step leave it. The count n is the one decoded at fetch (D9, log 12), a taken jump's target is not
checked (D10, log 13), a failing step leaves `ip` (D11, log 14), and `LEN_MAX` is D16 (log 19). -/
def Obligations.IpIsWrittenInThreeWays : Prop :=
  (∀ (img : Image) (input : Word), (runEntry img input).ip = 0) ∧
    ∀ s t : State, s.len ≤ Config.lenMax → step s = .next t →
      (t.status ≠ .running ∧ t.ip = s.ip) ∨
      (t.status = .running ∧ ∃ i, fetch s = .ok i ∧
        (t.ip.toInt = s.ip.toInt + 1 + paramCount (opcodeOf i) ∨
          ∃ c target, (i = .jnz c target ∨ i = .jz c target) ∧ t.ip = operandWord target s))

/-- R20, R22, R40: every step keeps the state's invariant: memory in canonical form, its listed addresses
inside the image, the image no longer than `LEN_MAX`. -/
def Obligations.StepKeepsTheInvariant : Prop :=
  ∀ s t : State, s.Inv → step s = .next t → t.Inv

/-- The state after reset meets the invariant; its `ip` and `status` are the spec's, its `io`, `len` and `mem`
the model's choice (log 3, 4). -/
def Obligations.ResetMeetsTheInvariant : Prop :=
  State.reset.Inv ∧ State.reset.ip = 0 ∧ State.reset.status = .running ∧
    step State.reset = .next (failed .outOfBounds State.reset)

/-- R22: the length of a loaded image is the number of its literal's tokens (token grammar D3, log 22) and at least
1, and no step and no host transaction changes the length of a core. That `parse` too leaves the core as it is, and
answers a new image, is the model's choice (log 21). -/
def Obligations.LengthIsFixed : Prop :=
  (∀ s t : State, step s = .next t → t.len = s.len) ∧
    (∀ (tr : Transaction) (p p' : Platform) (r : Response), transact tr p = .ok (p', r) →
      p'.image.len = p.image.len) ∧
    ∀ (bytes : List Byte) (img : Image), hostParse bytes = .ok (.made img) →
      ∃ text, utf8Decode bytes = some text ∧ img.len = (splitCommas (stripTrailing text)).length ∧ 1 ≤ img.len

/-- R90: a running step is the step of the pseudocode on integers and a plain sequence of words (D1, D2, D4 to D11;
log 1, 2, 7 to 14). -/
def Obligations.StepRefinesThePseudocode : Prop :=
  ∀ s : State, s.Inv → s.status = .running → ∃ t, step s = .next t ∧ pview t = pstep (pview s)

/-! What each instruction does when its operands resolve: its result, its frame, and that it completes. -/

/-- R100, R102: ADD completes where its operands resolve, stores the sum reduced modulo 2^64 at its write parameter,
advances by 4 and leaves every other word, `io` and `status` alone. The width and the wrap-around are the spec's
decisions D1 and D2 (log 1, 2); that the advance does not change if the store overwrites the instruction is D9 (log 12). -/
def Obligations.AddStoresTheWrappedSum : Prop :=
  ∀ (a b : Operand) (dst : Word) (s : State), s.mem.wf → Readable a s → Readable b s → Writable dst s →
    ∃ t v, exec (.add a b dst) s = .next t ∧ Stored dst v s t ∧
      v.toInt = wrapInt ((operandWord a s).toInt + (operandWord b s).toInt) ∧
      t.ip = s.ip + 4 ∧ t.io = s.io ∧ t.status = s.status

/-- R101, R102: MUL likewise, with the product (D1, D2, D9; log 1, 2, 12). -/
def Obligations.MulStoresTheWrappedProduct : Prop :=
  ∀ (a b : Operand) (dst : Word) (s : State), s.mem.wf → Readable a s → Readable b s → Writable dst s →
    ∃ t v, exec (.mul a b dst) s = .next t ∧ Stored dst v s t ∧
      v.toInt = wrapInt ((operandWord a s).toInt * (operandWord b s).toInt) ∧
      t.ip = s.ip + 4 ∧ t.io = s.io ∧ t.status = s.status

/-- R110: IN completes where its write address is inside the image, stores `io` there, does not change `io`, advances
by 2, and leaves every other word and `status` alone. -/
def Obligations.InStoresTheIoRegister : Prop :=
  ∀ (dst : Word) (s : State), s.mem.wf → Writable dst s →
    ∃ t, exec (.inp dst) s = .next t ∧ Stored dst s.io s t ∧
      t.ip = s.ip + 2 ∧ t.io = s.io ∧ t.status = s.status

/-- R111: OUT completes where its operand resolves, overwrites `io` with it, advances by 2, and leaves memory and
`status` alone. -/
def Obligations.OutWritesTheIoRegister : Prop :=
  ∀ (src : Operand) (s : State), Readable src s →
    ∃ t, exec (.out src) s = .next t ∧ SameImage s t ∧
      t.io = operandWord src s ∧ t.ip = s.ip + 2 ∧ t.status = s.status

/-- R120, R122: JNZ completes where both operands resolve (the target too when the jump is not taken: D8, log 11);
it jumps, to a target that is not checked (D10, log 13), on any value but 0, else advances by 3, and leaves memory, `io`
and `status` alone. -/
def Obligations.JnzJumpsIfNonZero : Prop :=
  ∀ (c target : Operand) (s : State), Readable c s → Readable target s →
    ∃ t, exec (.jnz c target) s = .next t ∧ SameImage s t ∧ t.io = s.io ∧ t.status = s.status ∧
      t.ip = if (operandWord c s).toInt ≠ 0 then operandWord target s else s.ip + 3

/-- R121, R122: JZ likewise, on 0 alone (D8, D10; log 11, 13). -/
def Obligations.JzJumpsIfZero : Prop :=
  ∀ (c target : Operand) (s : State), Readable c s → Readable target s →
    ∃ t, exec (.jz c target) s = .next t ∧ SameImage s t ∧ t.io = s.io ∧ t.status = s.status ∧
      t.ip = if (operandWord c s).toInt = 0 then operandWord target s else s.ip + 3

/-- R130: LT completes where its operands resolve, stores 1 or 0 for the signed comparison at its write parameter,
advances by 4 and leaves every other word, `io` and `status` alone. -/
def Obligations.LtStoresTheSignedComparison : Prop :=
  ∀ (a b : Operand) (dst : Word) (s : State), s.mem.wf → Readable a s → Readable b s → Writable dst s →
    ∃ t v, exec (.lt a b dst) s = .next t ∧ Stored dst v s t ∧
      v = (if (operandWord a s).toInt < (operandWord b s).toInt then 1 else 0) ∧
      t.ip = s.ip + 4 ∧ t.io = s.io ∧ t.status = s.status

/-- R131: EQ likewise, for equality. -/
def Obligations.EqStoresTheEquality : Prop :=
  ∀ (a b : Operand) (dst : Word) (s : State), s.mem.wf → Readable a s → Readable b s → Writable dst s →
    ∃ t v, exec (.eq a b dst) s = .next t ∧ Stored dst v s t ∧
      v = (if operandWord a s = operandWord b s then 1 else 0) ∧
      t.ip = s.ip + 4 ∧ t.io = s.io ∧ t.status = s.status

/-- R140: HALT completes in every state and writes `status` alone. -/
def Obligations.HaltWritesOnlyStatus : Prop :=
  ∀ s : State, ∃ t, exec .halt s = .next t ∧ SameImage s t ∧ t.mem = s.mem ∧ t.ip = s.ip ∧ t.io = s.io ∧
    t.status = .halted

/-- R151 (c), (d): where a position-mode operand or a write address lies outside the image, the instruction
enters `OutOfBounds` and writes nothing else; for a jump also when it is not taken (D8, log 11). -/
def Obligations.OperandOutsideImageFaults : Prop :=
  ∀ (s : State) (a b : Operand) (dst : Word),
    (¬ (Readable a s ∧ Readable b s ∧ Writable dst s) →
      exec (.add a b dst) s = .next (failed .outOfBounds s) ∧
      exec (.mul a b dst) s = .next (failed .outOfBounds s) ∧
      exec (.lt a b dst) s = .next (failed .outOfBounds s) ∧
      exec (.eq a b dst) s = .next (failed .outOfBounds s)) ∧
    (¬ Writable dst s → exec (.inp dst) s = .next (failed .outOfBounds s)) ∧
    (¬ Readable a s → exec (.out a) s = .next (failed .outOfBounds s)) ∧
    (¬ (Readable a s ∧ Readable b s) →
      exec (.jnz a b) s = .next (failed .outOfBounds s) ∧ exec (.jz a b) s = .next (failed .outOfBounds s))

/-- R151: a running step enters `OutOfBounds` in exactly four places: the fetch, the parameter fetch, a value
parameter that does not resolve, a write parameter outside the image; and outside a run the host's `read`,
`write` and `slice` return it to the host. -/
def Obligations.OutOfBoundsHasFourPlaces : Prop :=
  (∀ s : State, s.status = .running →
    (step s = .next (failed .outOfBounds s) ↔
      ¬ s.InBounds s.ip.toInt ∨
      ∃ h, s.InBounds s.ip.toInt ∧ decodeWord (instrWord s) = .ok h ∧
        ((1 ≤ paramCount h.op ∧ (s.len : Int) < s.ip.toInt + 1 + paramCount h.op) ∨
          ((1 ≤ paramCount h.op → s.ip.toInt + 1 + paramCount h.op ≤ (s.len : Int)) ∧
            ∃ i, ((paramRoles h.op)[i]? = some .value ∧ ¬ Readable (valueAt s i) s) ∨
              ((paramRoles h.op)[i]? = some .write ∧ ¬ Writable (rawParam s i) s))))) ∧
    ∀ (p : Platform) (a : Int) (v : Word) (n : Nat), p.busy = false →
      (¬ p.image.InBounds a →
        transact (.read a) p = .ok (p, .error (.run .outOfBounds)) ∧
        transact (.write a v) p = .ok (p, .error (.run .outOfBounds))) ∧
      (1 ≤ n → ¬ (0 ≤ a ∧ a + n ≤ (p.image.len : Int)) →
        transact (.slice a n) p = .ok (p, .error (.run .outOfBounds)))

/-- R102: a sum or product inside the word range is stored exactly (the range is D1, log 1). -/
def Obligations.InRangeResultIsExact : Prop :=
  ∀ (a b : Operand) (dst : Word) (s : State), s.mem.wf → Readable a s → Readable b s → Writable dst s →
    (Config.wordMin ≤ (operandWord a s).toInt + (operandWord b s).toInt →
      (operandWord a s).toInt + (operandWord b s).toInt ≤ Config.wordMax →
      ∃ t, exec (.add a b dst) s = .next t ∧
        (t.word dst.toInt.toNat).toInt = (operandWord a s).toInt + (operandWord b s).toInt) ∧
    (Config.wordMin ≤ (operandWord a s).toInt * (operandWord b s).toInt →
      (operandWord a s).toInt * (operandWord b s).toInt ≤ Config.wordMax →
      ∃ t, exec (.mul a b dst) s = .next t ∧
        (t.word dst.toInt.toNat).toInt = (operandWord a s).toInt * (operandWord b s).toInt)

/-- R112: an IN after an OUT stores the value the OUT wrote. -/
def Obligations.InAfterOutStoresTheOutput : Prop :=
  ∀ (src : Operand) (dst : Word) (s : State), s.mem.wf → Readable src s → Writable dst s →
    ∃ t u, exec (.out src) s = .next t ∧ exec (.inp dst) t = .next u ∧
      Stored dst (operandWord src s) s u ∧ u.io = operandWord src s

/-! The rules of the instructions as whole steps, from the instruction word in memory on. -/

/-- R100 from the instruction word on: its canonical words, its checks, its faults and its result (width and wrap-around
are D1, D2; log 1, 2). Words with valid digits beyond the canonical ones run too: every digit is checked (D6, log 9), one
beyond the parameters ignored (D7, log 10). The order of the checks is D5 (log 8), what a failing step changes D11
(log 14), the count of the advance D9 (log 12). -/
def Obligations.AddStepRule : Prop :=
  CanonicalOf 1 [1, 101, 1001, 1101] ∧ RuleA 1 fun x y => wrapInt (x + y)

/-- R101 likewise (D1, D2, D5, D6, D7, D9, D11; log 1, 2, 8, 9, 10, 12, 14). -/
def Obligations.MulStepRule : Prop :=
  CanonicalOf 2 [2, 102, 1002, 1102] ∧ RuleA 2 fun x y => wrapInt (x * y)

/-- R130 from the instruction word on: its canonical words, its checks, its faults and its result (D5,
D6, D7, D9, D11 as for ADD; log 8, 9, 10, 12, 14). -/
def Obligations.LtStepRule : Prop :=
  CanonicalOf 7 [7, 107, 1007, 1107] ∧ RuleA 7 fun x y => if x < y then 1 else 0

/-- R131 from the instruction word on: its canonical words, its checks, its faults and its result (D5,
D6, D7, D9, D11 as for ADD; log 8, 9, 10, 12, 14). -/
def Obligations.EqStepRule : Prop :=
  CanonicalOf 8 [8, 108, 1008, 1108] ∧ RuleA 8 fun x y => if x = y then 1 else 0

/-- R120 from the instruction word on: its canonical words, its checks, its faults and its result (both operands resolve,
taken or not: D8, log 11; a taken jump's target is not checked: D10, log 13). Words with valid digits beyond the
canonical ones run too: every digit is checked (D6, log 9), one beyond the parameters ignored (D7, log 10). The order of
the checks is D5 (log 8), what a failing step changes D11 (log 14). -/
def Obligations.JnzStepRule : Prop :=
  CanonicalOf 5 [5, 105, 1005, 1105] ∧ RuleJ 5 fun c => c ≠ 0

/-- R121 likewise (D5, D6, D7, D8, D10, D11; log 8, 9, 10, 11, 13, 14). -/
def Obligations.JzStepRule : Prop :=
  CanonicalOf 6 [6, 106, 1006, 1106] ∧ RuleJ 6 fun c => c = 0

/-- R110 from the instruction word on: its canonical word, its checks, its fault and its result (D5, D6,
D7, D9, D11 as for ADD; log 8, 9, 10, 12, 14). -/
def Obligations.InStepRule : Prop :=
  CanonicalOf 3 [3] ∧ ∀ s : State, s.Inv → Selects 3 s →
    ChecksBefore 1 s ∧
    (Fetched 1 s → ¬ Writable (rawParam s 0) s → step s = .next (failed .outOfBounds s)) ∧
    (Fetched 1 s → Writable (rawParam s 0) s →
      ∃ t, step s = .next t ∧ Stored (rawParam s 0) s.io s t ∧
        t.ip.toInt = s.ip.toInt + 2 ∧ t.io = s.io ∧ t.status = .running)

/-- R111 from the instruction word on: its canonical words, its checks, its fault and its result (D5, D6,
D7, D11 as for ADD; log 8, 9, 10, 14). -/
def Obligations.OutStepRule : Prop :=
  CanonicalOf 4 [4, 104] ∧ ∀ s : State, s.Inv → Selects 4 s →
    ChecksBefore 1 s ∧
    (Fetched 1 s → ¬ Readable (valueAt s 0) s → step s = .next (failed .outOfBounds s)) ∧
    (Fetched 1 s → Readable (valueAt s 0) s →
      ∃ t, step s = .next t ∧ SameImage s t ∧ t.io = operandWord (valueAt s 0) s ∧
        t.ip.toInt = s.ip.toInt + 2 ∧ t.status = .running)

/-- R140: HALT makes no parameter fetch, so the last word of the image may hold it; afterwards the run is over,
its result is `io`, and no further step is taken (every digit is checked, D6, and a valid one
ignored, D7; a failing step is D11; log 9, 10, 14). -/
def Obligations.HaltStepRule : Prop :=
  CanonicalOf 99 [99] ∧ ∀ s : State, Selects 99 s →
    (¬ DigitsValid (instrWord s) → step s = .next (failed .unknownParameterMode s)) ∧
    (DigitsValid (instrWord s) →
      ∃ t, step s = .next t ∧ t.toImage = s.toImage ∧ t.ip = s.ip ∧ t.io = s.io ∧ t.status = .halted ∧
        runResult t = some (.ok s.io) ∧ ∀ u, step t ≠ .next u)

/-! Runs, the host and several cores. -/

/-- R26, R157: no step leaves `Halted` or `Failed`; the run loop stays there. That the model's `step` answers a
named stop in a terminal status is its own choice (log 6). -/
def Obligations.TerminalStatusIsFinal : Prop :=
  ∀ (s : State) (fuel : Nat), Over s → (∀ t, step s ≠ .next t) ∧ runLoop fuel s = s

/-- R180, R184: run entry from any core with no run in progress; the image is as the host left it. -/
def Obligations.RunEntrySetsThreeRegisters : Prop :=
  ∀ (p : Platform) (input : Int), p.busy = false → Config.wordMin ≤ input → input ≤ Config.wordMax →
    ∃ s, transact (.run input) p = .ok (.entered s, .entered) ∧ s.io.toInt = input ∧ s.ip = 0 ∧
      s.status = .running ∧ s.toImage = p.image

/-- R183, R186: a run in which no OUT is fetched keeps its input in `io`. -/
def Obligations.NoOutKeepsTheInput : Prop :=
  ∀ (fuel : Nat) (s : State), (∀ k < fuel, ∀ src, fetch (runLoop k s) ≠ .ok (.out src)) →
    (runLoop fuel s).io = s.io

/-- R54, R20, R58: every state of every run of every literal that loads, with any input, meets the invariant
and has the length that was loaded (D3, D16; log 22, 19; the reading of bytes is log 32). -/
def Obligations.EveryRunKeepsTheInvariant : Prop :=
  ∀ (bytes : List Byte) (img : Image) (input : Word) (fuel : Nat), hostParse bytes = .ok (.made img) →
    (runLoop fuel (runEntry img input)).Inv ∧ (runLoop fuel (runEntry img input)).len = img.len

/-- R54: a literal parses to one word per token, in order, the value of each token; if any token is not a
number in range, there is no image (token grammar D3, log 22). -/
def Obligations.ParseIsTokenByToken : Prop :=
  ∀ text : List Char,
    (∀ ws, parse text = .ok ws →
      (splitCommas (stripTrailing text)).map parseToken = ws.map some ∧ (Image.fromWords ws).len = ws.length ∧
        ∀ k (h : k < ws.length), (Image.fromWords ws).word k = ws[k]) ∧
    (parse text = .error .malformedLiteral ↔ ∃ t ∈ splitCommas (stripTrailing text), parseToken t = none)

/-- R54: the literal of any nonempty list of words, with trailing white space or without, parses to those words
(D3, log 22). -/
def Obligations.LiteralRoundTrip : Prop :=
  ∀ (ws : List Word) (blank : List Char), ws ≠ [] → blank.all isTrailing = true →
    parse (renderLiteral ws ++ blank) = .ok ws

/-- R55: the host's write between runs changes that word and no other; outside the image it is an error to the
host and no run failure (D26, log 21). -/
def Obligations.HostWriteIsAPatch : Prop :=
  ∀ (p : Platform) (a : Int) (v : Word), p.busy = false → p.image.mem.wf →
    (p.image.InBounds a → ∃ p', transact (.write a v) p = .ok (p', .done) ∧ p'.image.word a.toNat = v ∧
      (∀ k, k ≠ a.toNat → p'.image.word k = p.image.word k) ∧
      ∀ s, p = .entered s → ∃ t, p' = .entered t ∧ t.ip = s.ip ∧ t.io = s.io ∧ t.status = s.status) ∧
    (¬ p.image.InBounds a → transact (.write a v) p = .ok (p, .error (.run .outOfBounds)))

/-- R190: while a run is in progress every transaction but `parse` is refused, and `parse` leaves the core alone
(U11, log 21). -/
def Obligations.HostHasNoMoveDuringARun : Prop :=
  ∀ (s : State) (tr : Transaction), s.status = .running →
    ((∀ bytes, tr ≠ .parse bytes) → transact tr (.entered s) = .error .runInProgress) ∧
    ∀ p' r, transact tr (.entered s) = .ok (p', r) → p' = .entered s

/-- R20, R55: every host transaction keeps the invariant of the core's image, and every image it makes meets
it (writes between runs are D26, log 21; `LEN_MAX` is D16, log 19). -/
def Obligations.TransactionsKeepTheInvariant : Prop :=
  ∀ (tr : Transaction) (p p' : Platform) (r : Response), p.image.Inv → transact tr p = .ok (p', r) →
    p'.image.Inv ∧ ∀ img, r = .made img → img.Inv

/-- R164: cores share nothing: a step of one is that core's own step, and leaves every other as it was, whatever
the other's status; and the steps of two cores may be taken in either order. -/
def Obligations.CoresAreIndependent : Prop :=
  ∀ (cs ds : List State) (k : Nat), stepCore k cs = .next ds →
    (∃ s t, cs[k]? = some s ∧ step s = .next t ∧ ds[k]? = some t) ∧
    ∀ j, j ≠ k → ds[j]? = cs[j]? ∧
      ∀ es, stepCore j ds = .next es → ∃ ds', stepCore j cs = .next ds' ∧ stepCore k ds' = .next es

/-- The instruction placed by `withFetchWord` is the one the next step runs (log 4, log 29). -/
def Obligations.PlacedInstructionRuns : Prop :=
  ∀ (s : State) (nbits w : Nat) (i : Instr), s.mem.wf → decodeTableWord nbits w = some i →
    step (s.withFetchWord nbits w) = exec i (s.withFetchWord nbits w)

/-- R54: which texts load, and as what: exactly the literals of the grammar, each token `-?[0-9]+` with a value in
the word range; every other text is `MalformedLiteral` (token grammar D3, log 22). -/
def Obligations.LiteralGrammar : Prop :=
  ∀ text : List Char,
    (∀ ws, parse text = .ok ws ↔ LiteralOf text ws) ∧
      (parse text = .error .malformedLiteral ↔ ∀ ws, ¬ LiteralOf text ws)

/-- R54, Table H1: the host's `parse` reads its bytes as UTF-8, and answers an image of the words of the text, a
refusal of an image above `LEN_MAX` (D16, log 19), or `MalformedLiteral` (D3, log 22); bytes that are no UTF-8 are
`MalformedLiteral` (log 32), and the core is left as it is (log 21). -/
def Obligations.HostParseReadsUtf8 : Prop :=
  ∀ (bytes : List Byte) (p : Platform),
    (∀ text, bytes = utf8 text →
      (∀ ws, parse text = .ok ws → transact (.parse bytes) p =
        if ws.length ≤ Config.lenMax then .ok (p, .made (Image.fromWords ws)) else .error .imageTooLong) ∧
      (parse text = .error .malformedLiteral →
        transact (.parse bytes) p = .ok (p, .error .malformedLiteral))) ∧
    ((∀ text, bytes ≠ utf8 text) → transact (.parse bytes) p = .ok (p, .error .malformedLiteral))
end

