-- ==== Sys2Proof/Laws/Arith.lean ====
section
/-! SUPPORT. The arithmetic of a word: `wrap_W` is reduction modulo 2^W, and the wrapped sum and product are
the word type's own. -/

namespace Sys2Proof.Machine

theorem wrapW_toInt (v : Int) : (wrapW v).toInt = v.bmod (2 ^ 64) := by
  simp [wrapW, BitVec.toInt_ofInt]

/-- A word is what `wrap_W` makes of its own value. -/
theorem wrapW_toInt_self (w : Word) : wrapW w.toInt = w := by
  simp [wrapW]

theorem addW_eq (a b : Word) : addW a b = a + b := by
  apply BitVec.eq_of_toInt_eq
  rw [addW, wrapW_toInt, BitVec.toInt_add]

theorem mulW_eq (a b : Word) : mulW a b = a * b := by
  apply BitVec.eq_of_toInt_eq
  rw [mulW, wrapW_toInt, BitVec.toInt_mul]

theorem isZero_eq (c : Word) : isZero c = decide (c = 0) := by
  simp [isZero, ← BitVec.toInt_inj]

theorem isNonZero_eq (c : Word) : isNonZero c = !isZero c := by
  simp [isNonZero, isZero]

theorem truthWord_true : truthWord true = 1 := rfl

theorem truthWord_false : truthWord false = 0 := rfl

end Sys2Proof.Machine
end

