-- ==== Sys2Proof/Laws/Decode.lean ====
section
/-! SUPPORT. What the decoder and the encoder say of one instruction word. -/

namespace Sys2Proof

theorem opcodeOfNumber_opcodeNumber (op : Opcode) : opcodeOfNumber (opcodeNumber op) = some op := by
  cases op <;> rfl

/-- The supported numbers are exactly the table's (R65). -/
theorem opcodeOfNumber_some (n : Nat) (op : Opcode) (h : opcodeOfNumber n = some op) :
    n = opcodeNumber op := by
  unfold opcodeOfNumber at h
  split at h <;> first | (cases h; rfl) | cases h

theorem opcodeNumber_lt (op : Opcode) : opcodeNumber op < 100 := by
  cases op <;> decide

theorem paramCount_le (op : Opcode) : paramCount op ≤ 3 := by
  cases op <;> decide

theorem modeDigitsValid_iff_below (m : Nat) :
    modeDigitsValid m = true ↔ ∀ k < Config.modeDigits, digit k m ≤ 1 := by
  simp [modeDigitsValid, List.all_eq_true]

/-- A mode field has no digit but 0 beyond the digits that are looked at. -/
theorem digit_beyond (m k : Nat) (hm : m < 10 ^ Config.modeDigits) (hk : Config.modeDigits ≤ k) :
    digit k m = 0 := by
  unfold digit
  rw [Nat.div_eq_of_lt (lt_of_lt_of_le hm (Nat.pow_le_pow_right (by norm_num) hk)), Nat.zero_mod]

/-- What `modeDigitsValid` says of a mode field of a word: every decimal digit is 0 or 1 (R69). -/
theorem modeDigitsValid_iff (m : Nat) (hm : m < 10 ^ Config.modeDigits) :
    modeDigitsValid m = true ↔ ∀ k, digit k m ≤ 1 := by
  rw [modeDigitsValid_iff_below]
  refine ⟨fun h k => ?_, fun h k _ => h k⟩
  by_cases hk : k < Config.modeDigits
  · exact h k hk
  · rw [digit_beyond m k hm (by omega)]
    omega

/-- A word that is not negative has the same value read as signed and as unsigned, at most `WORD_MAX`. -/
theorem toInt_nonneg (w : Word) (h : 0 ≤ w.toInt) : w.toNat < 2 ^ 63 ∧ w.toInt = w.toNat := by
  have hc := BitVec.toInt_eq_toNat_cond w
  have hl := w.isLt
  split at hc <;> constructor <;> omega

theorem modeField_lt (w : Word) (h : 0 ≤ w.toInt) : w.toNat / 100 < 10 ^ Config.modeDigits := by
  have := (toInt_nonneg w h).1
  have e : (10 : Nat) ^ Config.modeDigits = 100000000000000000 := rfl
  omega

theorem decodeWord_negative (w : Word) (h : w.toInt < 0) : decodeWord w = .error .unknownOpcode := if_pos h

theorem decodeWord_nonneg (w : Word) (h : 0 ≤ w.toInt) :
    decodeWord w =
      match opcodeOfNumber (w.toNat % 100) with
      | none => .error .unknownOpcode
      | some op =>
        if modeDigitsValid (w.toNat / 100) then .ok ⟨op, modesOf op (w.toNat / 100)⟩
        else .error .unknownParameterMode := if_neg (by omega)

/-- Everything a decoded instruction word says (R72). -/
theorem decodeWord_ok (w : Word) (h : Header) (hd : decodeWord w = .ok h) :
    0 ≤ w.toInt ∧ w.toNat % 100 = opcodeNumber h.op ∧ modeDigitsValid (w.toNat / 100) = true ∧
      h.modes = modesOf h.op (w.toNat / 100) := by
  unfold decodeWord at hd
  split at hd
  · cases hd
  · rename_i hw
    split at hd
    · cases hd
    · rename_i op hop
      split at hd
      · rename_i hv
        cases hd
        exact ⟨by omega, opcodeOfNumber_some _ _ hop, hv, rfl⟩
      · cases hd

/-- The instruction words the encoder writes decode to their opcode and modes: the value digits written, the
write digit position. -/
theorem decodeWord_headA (op : Opcode) (h : paramRoles op = [.value, .value, .write]) (a b : Mode) :
    decodeWord (headWord op [a, b, .position]) = .ok ⟨op, [a, b, .position]⟩ := by
  cases op <;> first | (simp [paramRoles] at h; done) | (cases a <;> cases b <;> rfl)

theorem decodeWord_headJ (op : Opcode) (h : paramRoles op = [.value, .value]) (a b : Mode) :
    decodeWord (headWord op [a, b]) = .ok ⟨op, [a, b]⟩ := by
  cases op <;> first | (simp [paramRoles] at h; done) | (cases a <;> cases b <;> rfl)

theorem decodeWord_headR (a : Mode) : decodeWord (headWord .out [a]) = .ok ⟨.out, [a]⟩ := by
  cases a <;> rfl

theorem decodeWord_headW : decodeWord (headWord .inp [.position]) = .ok ⟨.inp, [.position]⟩ := rfl

theorem decodeWord_headZ : decodeWord (headWord .halt []) = .ok ⟨.halt, []⟩ := rfl

/-- The instruction words the encoder writes are canonical and of their opcode (R61, R71). -/
theorem headA_canonical (op : Opcode) (h : paramRoles op = [.value, .value, .write]) (a b : Mode) :
    canonicalWord (headWord op [a, b, .position]) = true ∧
      (headWord op [a, b, .position]).toNat % 100 = opcodeNumber op := by
  cases op <;> first | (simp [paramRoles] at h; done) | (cases a <;> cases b <;> decide)

theorem headJ_canonical (op : Opcode) (h : paramRoles op = [.value, .value]) (a b : Mode) :
    canonicalWord (headWord op [a, b]) = true ∧ (headWord op [a, b]).toNat % 100 = opcodeNumber op := by
  cases op <;> first | (simp [paramRoles] at h; done) | (cases a <;> cases b <;> decide)

theorem headR_canonical (a : Mode) :
    canonicalWord (headWord .out [a]) = true ∧ (headWord .out [a]).toNat % 100 = opcodeNumber .out := by
  cases a <;> decide

theorem headW_canonical :
    canonicalWord (headWord .inp [.position]) = true ∧
      (headWord .inp [.position]).toNat % 100 = opcodeNumber .inp := by decide

theorem headZ_canonical :
    canonicalWord (headWord .halt []) = true ∧ (headWord .halt []).toNat % 100 = opcodeNumber .halt := by
  decide

theorem operandOf_mode_raw (o : Operand) : operandOf (operandMode o) (operandRaw o) = o := by
  cases o <;> rfl

theorem decode_cons_ok (w : Word) (rest : List Word) (h : Header) (hw : decodeWord w = .ok h)
    (hr : paramCount h.op ≤ rest.length) :
    decode (w :: rest) =
      .ok (assemble h (rest.take (paramCount h.op)), rest.drop (paramCount h.op)) := by
  simp only [decode, hw]
  rw [if_neg (by omega)]

/-- Everything a successful decode says. -/
theorem decode_ok (ws rest : List Word) (i : Instr) (hd : decode ws = .ok (i, rest)) :
    ∃ w ps h, ws = w :: (ps ++ rest) ∧ ps.length = paramCount h.op ∧ decodeWord w = .ok h ∧
      i = assemble h ps := by
  unfold decode at hd
  split at hd
  · cases hd
  · rename_i w tail
    split at hd
    · cases hd
    · rename_i h hw
      split at hd
      · cases hd
      · rename_i hl
        have hd := Except.ok.inj hd
        refine ⟨w, tail.take (paramCount h.op), h, ?_, ?_, hw, (congrArg Prod.fst hd).symm⟩
        · have hr : tail.drop (paramCount h.op) = rest := congrArg Prod.snd hd
          rw [← hr, List.take_append_drop]
        · simp only [List.length_take]
          omega

end Sys2Proof
end

