-- ==== Sys2Proof/Laws/Memory.lean ====
section
/-! SUPPORT. The laws of the memory: a store is read back, leaves every other word alone, and keeps the
canonical form and the bound on the listed addresses. -/

namespace Sys2Proof.Machine

@[simp] theorem Memory.lookup_nil (a : Nat) : Memory.lookup [] a = Memory.unlisted := rfl

@[simp] theorem Memory.lookup_cons (k : Nat) (u : Word) (m : Memory) (a : Nat) :
    Memory.lookup ((k, u) :: m) a = if a = k then u else Memory.lookup m a := rfl

/-- An address below every listed one reads as unlisted. -/
theorem Memory.lookup_below (m : Memory) (a : Nat) (h : ∀ c ∈ m, a < c.1) :
    m.lookup a = Memory.unlisted := by
  induction m with
  | nil => rfl
  | cons c m ih =>
    obtain ⟨k, u⟩ := c
    have hk : a < k := h (k, u) (by simp)
    rw [Memory.lookup_cons, if_neg (by omega)]
    exact ih fun c hc => h c (by simp [hc])

theorem Memory.mem_push (a : Nat) (v : Word) (m : Memory) (c : Cell) (h : c ∈ Memory.push a v m) :
    c = (a, v) ∨ c ∈ m := by
  unfold Memory.push at h
  split at h
  · exact .inr h
  · simpa using h

/-- What `push` in front of larger addresses reads as. -/
theorem Memory.lookup_push (a : Nat) (v : Word) (m : Memory) (b : Nat) (h : ∀ c ∈ m, a < c.1) :
    (Memory.push a v m).lookup b = if b = a then v else m.lookup b := by
  unfold Memory.push
  split
  · rename_i hv
    split
    · subst_vars; exact Memory.lookup_below m _ h
    · rfl
  · rfl

theorem Memory.push_wf (a : Nat) (v : Word) (m : Memory) (hm : m.wf) (h : ∀ c ∈ m, a < c.1) :
    (Memory.push a v m).wf := by
  unfold Memory.push
  split
  · exact hm
  · rename_i hv
    exact ⟨List.pairwise_cons.2 ⟨h, hm.1⟩, by simpa [hv] using hm.2⟩

theorem Memory.wf_tail (c : Cell) (m : Memory) (h : Memory.wf (c :: m)) : Memory.wf m :=
  ⟨(List.pairwise_cons.1 h.1).2, fun d hd => h.2 d (by simp [hd])⟩

theorem Memory.wf_head_lt (c : Cell) (m : Memory) (h : Memory.wf (c :: m)) : ∀ d ∈ m, c.1 < d.1 :=
  (List.pairwise_cons.1 h.1).1

theorem Memory.mem_store (m : Memory) (a : Nat) (v : Word) (c : Cell) (h : c ∈ m.store a v) :
    c = (a, v) ∨ c ∈ m := by
  induction m with
  | nil => exact Memory.mem_push a v [] c h
  | cons d m ih =>
    obtain ⟨k, u⟩ := d
    unfold Memory.store at h
    split at h
    · exact Memory.mem_push _ _ _ c h
    · split at h
      · rcases Memory.mem_push _ _ _ c h with h | h
        · exact .inl h
        · exact .inr (by simp [h])
      · rcases List.mem_cons.1 h with h | h
        · exact .inr (by simp [h])
        · rcases ih h with h | h
          · exact .inl h
          · exact .inr (by simp [h])

/-- A read after a store: the word stored at its own address, the old word everywhere else. -/
theorem Memory.lookup_store (m : Memory) (hm : m.wf) (a : Nat) (v : Word) (b : Nat) :
    (m.store a v).lookup b = if b = a then v else m.lookup b := by
  induction m with
  | nil => exact Memory.lookup_push a v [] b (by simp)
  | cons d m ih =>
    obtain ⟨k, u⟩ := d
    have hlt := Memory.wf_head_lt _ _ hm
    unfold Memory.store
    split
    · rename_i hak
      apply Memory.lookup_push
      intro c hc
      rcases List.mem_cons.1 hc with rfl | hc
      · exact hak
      · exact lt_trans hak (hlt c hc)
    · split
      · rename_i _ hak
        subst hak
        rw [Memory.lookup_push a v m b hlt, Memory.lookup_cons]
        split <;> simp_all
      · rename_i hak hne
        rw [Memory.lookup_cons, Memory.lookup_cons, ih (Memory.wf_tail _ _ hm)]
        by_cases hb : b = k
        · rw [if_pos hb, if_pos hb, if_neg (by omega)]
        · rw [if_neg hb, if_neg hb]

/-- A store keeps the canonical form. -/
theorem Memory.store_wf (m : Memory) (hm : m.wf) (a : Nat) (v : Word) : (m.store a v).wf := by
  induction m with
  | nil => exact Memory.push_wf a v [] hm (by simp)
  | cons d m ih =>
    obtain ⟨k, u⟩ := d
    have hlt := Memory.wf_head_lt _ _ hm
    have htail := Memory.wf_tail _ _ hm
    unfold Memory.store
    split
    · rename_i hak
      apply Memory.push_wf _ _ _ hm
      intro c hc
      rcases List.mem_cons.1 hc with rfl | hc
      · exact hak
      · exact lt_trans hak (hlt c hc)
    · split
      · rename_i _ hak
        subst hak
        exact Memory.push_wf a v m htail hlt
      · rename_i hak hne
        refine ⟨List.pairwise_cons.2 ⟨fun c hc => ?_, (ih htail).1⟩, fun c hc => ?_⟩
        · rcases Memory.mem_store m a v c hc with rfl | hc
          · show k < a
            omega
          · exact hlt c hc
        · rcases List.mem_cons.1 hc with rfl | hc
          · exact hm.2 _ (by simp)
          · exact (ih htail).2 c hc

/-- A store inside a bound keeps the listed addresses inside it. -/
theorem Memory.store_bound (m : Memory) (n : Nat) (h : ∀ c ∈ m, c.1 < n) (a : Nat) (v : Word)
    (ha : a < n) : ∀ c ∈ m.store a v, c.1 < n := by
  intro c hc
  rcases Memory.mem_store m a v c hc with rfl | hc
  · exact ha
  · exact h c hc

theorem Memory.fromWords_bound (k : Nat) (ws : List Word) :
    ∀ c ∈ Memory.fromWords k ws, k ≤ c.1 ∧ c.1 < k + ws.length := by
  induction ws generalizing k with
  | nil => simp [Memory.fromWords]
  | cons w ws ih =>
    intro c hc
    rcases Memory.mem_push _ _ _ c hc with rfl | hc
    · simp
    · have := ih (k + 1) c hc
      simp only [List.length_cons]
      omega

/-- A memory made of words is in canonical form. -/
theorem Memory.fromWords_wf (k : Nat) (ws : List Word) : (Memory.fromWords k ws).wf := by
  induction ws generalizing k with
  | nil => exact ⟨List.Pairwise.nil, by simp [Memory.fromWords]⟩
  | cons w ws ih =>
    exact Memory.push_wf k w _ (ih (k + 1)) fun c hc => by
      have := Memory.fromWords_bound (k + 1) ws c hc
      omega

/-- A memory made of words reads as those words. -/
theorem Memory.lookup_fromWords (k : Nat) (ws : List Word) (i : Nat) (h : i < ws.length) :
    (Memory.fromWords k ws).lookup (k + i) = ws[i] := by
  induction ws generalizing k i with
  | nil => simp at h
  | cons w ws ih =>
    have hlt : ∀ c ∈ Memory.fromWords (k + 1) ws, k < c.1 := fun c hc => by
      have := Memory.fromWords_bound (k + 1) ws c hc
      omega
    rw [Memory.fromWords, Memory.lookup_push _ _ _ _ hlt]
    cases i with
    | zero => simp
    | succ i =>
      rw [if_neg (by omega)]
      have := ih (k + 1) i (by simpa using h)
      simpa [Nat.add_assoc, Nat.add_comm 1 i] using this

end Sys2Proof.Machine
end

