-- ==== Sys2Proof/Laws/Image.lean ====
section
/-! SUPPORT. What MemRead, MemWrite and the loader's image say: one lemma per operation and outcome. -/

namespace Sys2Proof.Machine

theorem Image.read_inBounds (img : Image) (a : Int) (h : img.InBounds a) :
    img.read a = .ok (img.word a.toNat) := if_pos h

theorem Image.read_outOfBounds (img : Image) (a : Int) (h : ¬ img.InBounds a) :
    img.read a = .error .outOfBounds := if_neg h

theorem Image.write_inBounds (img : Image) (a : Int) (v : Word) (h : img.InBounds a) :
    img.write a v = .ok { img with mem := img.mem.store a.toNat v } := if_pos h

theorem Image.write_outOfBounds (img : Image) (a : Int) (v : Word) (h : ¬ img.InBounds a) :
    img.write a v = .error .outOfBounds := if_neg h

/-- Everything a successful write can do. -/
theorem Image.write_ok (img img' : Image) (a : Int) (v : Word) (h : img.write a v = .ok img') :
    img.InBounds a ∧ img' = { img with mem := img.mem.store a.toNat v } := by
  unfold Image.write at h
  split at h
  · exact ⟨‹_›, by simpa using h.symm⟩
  · cases h

theorem Image.word_store (img : Image) (h : img.mem.wf) (a : Nat) (v : Word) (b : Nat) :
    Image.word { img with mem := img.mem.store a v } b = if b = a then v else img.word b :=
  Memory.lookup_store img.mem h a v b

/-- A write keeps the image's invariant. -/
theorem Image.write_inv (img img' : Image) (a : Int) (v : Word) (h : img.Inv)
    (hw : img.write a v = .ok img') : img'.Inv := by
  obtain ⟨⟨h0, h1⟩, rfl⟩ := Image.write_ok img img' a v hw
  exact ⟨Memory.store_wf _ h.1 _ _, Memory.store_bound _ _ h.2.1 _ _ (by omega), h.2.2⟩

theorem Image.slice_zero (img : Image) (a : Int) : img.slice a 0 = .ok [] := rfl

theorem Image.slice_inBounds (img : Image) (a : Int) (n : Nat) (h0 : 0 ≤ a) (h1 : a + n ≤ (img.len : Int)) :
    img.slice a n = .ok ((List.range n).map fun k => img.word (a.toNat + k)) := by
  unfold Image.slice
  split
  · subst_vars; rfl
  · rw [if_pos ⟨h0, h1⟩]

theorem Image.slice_outOfBounds (img : Image) (a : Int) (n : Nat) (hn : n ≠ 0)
    (h : ¬ (0 ≤ a ∧ a + n ≤ (img.len : Int))) : img.slice a n = .error .outOfBounds := by
  rw [Image.slice, if_neg hn, if_neg h]

/-- Every error of MemRead is `OutOfBounds`. -/
theorem Image.slice_error (img : Image) (a : Int) (n : Nat) (e : RunError) (h : img.slice a n = .error e) :
    e = .outOfBounds := by
  unfold Image.slice at h
  split at h
  · cases h
  · split at h
    · cases h
    · exact (Except.error.inj h).symm

theorem Image.slice_length (img : Image) (a : Int) (n : Nat) (p : List Word) (h : img.slice a n = .ok p) :
    p.length = n := by
  unfold Image.slice at h
  split at h
  · simp_all only [Except.ok.injEq]; simp [← h]
  · split at h
    · simp [← Except.ok.inj h]
    · cases h

/-- The image of a list of words keeps the canonical form and lists only its own addresses. -/
theorem Image.fromWords_inv (ws : List Word) (h : ws.length ≤ Config.lenMax) : (Image.fromWords ws).Inv :=
  ⟨Memory.fromWords_wf 0 ws, fun c hc => by
    have := Memory.fromWords_bound 0 ws c hc
    simp only [Image.fromWords]
    omega, h⟩

theorem Image.fromWords_word (ws : List Word) (i : Nat) (h : i < ws.length) :
    (Image.fromWords ws).word i = ws[i] := by
  have h0 := Memory.lookup_fromWords 0 ws i h
  rw [Nat.zero_add] at h0
  exact h0

end Sys2Proof.Machine
end

