-- ==== Sys2Proof/Laws/Loader.lean ====
section
/-! SUPPORT. What the loader and the host's transactions can answer. -/

namespace Sys2Proof.Machine

theorem splitCommas_ne_nil (t : List Char) : splitCommas t ≠ [] := by
  cases t with
  | nil => simp [splitCommas]
  | cons c t =>
    unfold splitCommas
    split
    · simp
    · split <;> simp

/-- As many words as tokens. -/
theorem parseTokens_length (ts : List (List Char)) (ws : List Word) (h : parseTokens ts = some ws) :
    ws.length = ts.length := by
  induction ts generalizing ws with
  | nil => simp_all [parseTokens]
  | cons t ts ih =>
    unfold parseTokens at h
    split at h
    · rename_i w ws' _ hws
      simp only [Option.some.injEq] at h
      simp [← h, ih ws' hws]
    · cases h

/-- A literal that parses has one word for each of its tokens (R54). -/
theorem parse_ok (text : List Char) (ws : List Word) (h : parse text = .ok ws) :
    parseTokens (splitCommas (stripTrailing text)) = some ws := by
  unfold parse at h
  split at h
  · rename_i hp; rw [hp, Except.ok.inj h]
  · cases h

/-- A literal that does not parse is `MalformedLiteral` (R154). -/
theorem parse_error (text : List Char) (k : ErrorKind) (h : parse text = .error k) :
    k = .malformedLiteral ∧ parseTokens (splitCommas (stripTrailing text)) = none := by
  unfold parse at h
  split at h
  · cases h
  · rename_i hp; exact ⟨(Except.error.inj h).symm, hp⟩

/-- Bytes that parse are the UTF-8 of a text that parses. -/
theorem parseBytes_ok (bytes : List Byte) (ws : List Word) (h : parseBytes bytes = .ok ws) :
    ∃ text, utf8Decode bytes = some text ∧ parse text = .ok ws := by
  unfold parseBytes at h
  split at h
  · exact ⟨_, ‹_›, h⟩
  · cases h

/-- Bytes that do not parse are `MalformedLiteral`, no UTF-8 or the UTF-8 of a text that does not parse. -/
theorem parseBytes_error (bytes : List Byte) (k : ErrorKind) (h : parseBytes bytes = .error k) :
    k = .malformedLiteral ∧
      (utf8Decode bytes = none ∨ ∃ text, utf8Decode bytes = some text ∧ parse text = .error .malformedLiteral) := by
  unfold parseBytes at h
  split at h
  · rename_i text hu
    obtain ⟨rfl, -⟩ := parse_error text k h
    exact ⟨rfl, .inr ⟨text, hu, h⟩⟩
  · exact ⟨(Except.error.inj h).symm, .inl ‹_›⟩

theorem loadWords_ok (ws : List Word) (img : Image) (h : loadWords ws = .ok img) :
    img = Image.fromWords ws ∧ ws.length ≤ Config.lenMax := by
  unfold loadWords at h
  split at h
  · exact ⟨(Except.ok.inj h).symm, ‹_›⟩
  · cases h

/-- Everything a `parse` transaction that answers an image can do. -/
theorem hostParse_made (bytes : List Byte) (img : Image) (h : hostParse bytes = .ok (.made img)) :
    ∃ text ws, utf8Decode bytes = some text ∧ parse text = .ok ws ∧ loadWords ws = .ok img := by
  unfold hostParse at h
  split at h
  · simp at h
  · rename_i ws hp
    split at h
    · cases h
    · rename_i img' hl
      simp only [Except.ok.injEq, Response.made.injEq] at h
      obtain ⟨text, hu, ht⟩ := parseBytes_ok bytes ws hp
      exact ⟨text, ws, hu, ht, h ▸ hl⟩

@[simp] theorem Platform.image_loaded (img : Image) : (Platform.loaded img).image = img := rfl
@[simp] theorem Platform.image_entered (s : State) : (Platform.entered s).image = s.toImage := rfl
@[simp] theorem Platform.image_withImage (img : Image) (p : Platform) : (p.withImage img).image = img := by
  cases p <;> rfl

/-- Everything the host's write can do. -/
theorem hostWrite_cases (a : Int) (v : Word) (p : Platform) :
    (∃ img, p.image.write a v = .ok img ∧ hostWrite a v p = (p.withImage img, .done)) ∨
      (hostWrite a v p = (p, .error (.run .outOfBounds)) ∧ ¬ p.image.InBounds a) := by
  by_cases h : p.image.InBounds a
  · left
    exact ⟨_, Image.write_inBounds _ _ v h, by rw [hostWrite, Image.write_inBounds _ _ v h]⟩
  · right
    exact ⟨by rw [hostWrite, Image.write_outOfBounds _ _ v h], h⟩

end Sys2Proof.Machine
end

