-- ==== Sys2Proof/Laws/State.lean ====
section
/-! SUPPORT. What each update of the state does to each field; true by unfolding, so that no later proof
unfolds a record update. -/

namespace Sys2Proof.Machine

@[simp] theorem State.withImage_toImage (img : Image) (s : State) : (s.withImage img).toImage = img := rfl
@[simp] theorem State.withImage_ip (img : Image) (s : State) : (s.withImage img).ip = s.ip := rfl
@[simp] theorem State.withImage_io (img : Image) (s : State) : (s.withImage img).io = s.io := rfl
@[simp] theorem State.withImage_status (img : Image) (s : State) : (s.withImage img).status = s.status := rfl

@[simp] theorem State.setIo_toImage (v : Word) (s : State) : (s.setIo v).toImage = s.toImage := rfl
@[simp] theorem State.setIo_ip (v : Word) (s : State) : (s.setIo v).ip = s.ip := rfl
@[simp] theorem State.setIo_io (v : Word) (s : State) : (s.setIo v).io = v := rfl
@[simp] theorem State.setIo_status (v : Word) (s : State) : (s.setIo v).status = s.status := rfl

@[simp] theorem State.jumpTo_toImage (t : Word) (s : State) : (s.jumpTo t).toImage = s.toImage := rfl
@[simp] theorem State.jumpTo_ip (t : Word) (s : State) : (s.jumpTo t).ip = t := rfl
@[simp] theorem State.jumpTo_io (t : Word) (s : State) : (s.jumpTo t).io = s.io := rfl
@[simp] theorem State.jumpTo_status (t : Word) (s : State) : (s.jumpTo t).status = s.status := rfl

@[simp] theorem State.advance_toImage (n : Nat) (s : State) : (s.advance n).toImage = s.toImage := rfl
@[simp] theorem State.advance_ip (n : Nat) (s : State) :
    (s.advance n).ip = s.ip + BitVec.ofNat 64 (1 + n) := rfl
@[simp] theorem State.advance_io (n : Nat) (s : State) : (s.advance n).io = s.io := rfl
@[simp] theorem State.advance_status (n : Nat) (s : State) : (s.advance n).status = s.status := rfl

@[simp] theorem State.setStatus_toImage (st : RunStatus) (s : State) :
    (s.setStatus st).toImage = s.toImage := rfl
@[simp] theorem State.setStatus_ip (st : RunStatus) (s : State) : (s.setStatus st).ip = s.ip := rfl
@[simp] theorem State.setStatus_io (st : RunStatus) (s : State) : (s.setStatus st).io = s.io := rfl
@[simp] theorem State.setStatus_status (st : RunStatus) (s : State) : (s.setStatus st).status = st := rfl

@[simp] theorem runEntry_toImage (img : Image) (input : Word) : (runEntry img input).toImage = img := rfl
@[simp] theorem runEntry_ip (img : Image) (input : Word) : (runEntry img input).ip = 0 := rfl
@[simp] theorem runEntry_io (img : Image) (input : Word) : (runEntry img input).io = input := rfl
@[simp] theorem runEntry_status (img : Image) (input : Word) : (runEntry img input).status = .running := rfl

end Sys2Proof.Machine
end

