-- ==== Sys2Proof/Laws/Ops.lean ====
section
/-! SUPPORT. What each shared operation over the state can answer. -/

namespace Sys2Proof.Machine

@[simp] theorem attempt_ok {α : Type} (s : State) (x : α) (k : α → Host.Outcome State Fault Refusal) :
    attempt s (.ok x) k = k x := rfl

@[simp] theorem attempt_error {α : Type} (s : State) (e : RunError)
    (k : α → Host.Outcome State Fault Refusal) : attempt s (.error e) k = raise e s := rfl

/-- If `attempt` answers a next state, its check succeeded and the rest answered it, or its check failed and
the state is the failed one. -/
theorem attempt_next {α : Type} (s t : State) (r : Except RunError α)
    (k : α → Host.Outcome State Fault Refusal) (h : attempt s r k = .next t) :
    (∃ x, r = .ok x ∧ k x = .next t) ∨ (∃ e, r = .error e ∧ t = s.setStatus (.failed e)) := by
  cases r with
  | ok x => exact .inl ⟨x, rfl, h⟩
  | error e => exact .inr ⟨e, rfl, (Host.Outcome.next.inj h).symm⟩

@[simp] theorem readable_position (a : Word) (s : State) :
    Readable (.position a) s ↔ s.InBounds a.toInt := decide_eq_true_iff

@[simp] theorem readable_immediate (v : Word) (s : State) : Readable (.immediate v) s := rfl

theorem value_readable (o : Operand) (s : State) (h : Readable o s) : value o s = .ok (operandWord o s) := by
  cases o with
  | position a => exact Image.read_inBounds _ _ (of_decide_eq_true h)
  | immediate v => rfl

theorem value_unreadable (o : Operand) (s : State) (h : ¬ Readable o s) : value o s = .error .outOfBounds := by
  cases o with
  | position a => exact Image.read_outOfBounds _ _ fun hb => h (decide_eq_true hb)
  | immediate v => exact absurd rfl h

theorem storeAndAdvance_writable (dst v : Word) (n : Nat) (s : State) (h : Writable dst s) :
    storeAndAdvance dst v n s =
      .next ((s.withImage { s.toImage with mem := s.mem.store dst.toInt.toNat v }).advance n) := by
  rw [storeAndAdvance, Image.write_inBounds _ _ _ h, attempt_ok]

theorem storeAndAdvance_unwritable (dst v : Word) (n : Nat) (s : State) (h : ¬ Writable dst s) :
    storeAndAdvance dst v n s = raise .outOfBounds s := by
  rw [storeAndAdvance, Image.write_outOfBounds _ _ _ h, attempt_error]

/-- Everything a store that answers a next state can do. -/
theorem storeAndAdvance_next (dst v : Word) (n : Nat) (s t : State) (h : storeAndAdvance dst v n s = .next t) :
    (Writable dst s ∧ t = (s.withImage { s.toImage with mem := s.mem.store dst.toInt.toNat v }).advance n) ∨
      (¬ Writable dst s ∧ t = s.setStatus (.failed .outOfBounds)) := by
  by_cases hw : Writable dst s
  · rw [storeAndAdvance_writable _ _ _ _ hw] at h
    exact .inl ⟨hw, (Host.Outcome.next.inj h).symm⟩
  · rw [storeAndAdvance_unwritable _ _ _ _ hw] at h
    exact .inr ⟨hw, (Host.Outcome.next.inj h).symm⟩

/-- After a store the word at the destination is the stored one and every other word is the old one. -/
theorem stored_withImage (dst v : Word) (n : Nat) (s : State) (hm : s.mem.wf) :
    Stored dst v s ((s.withImage { s.toImage with mem := s.mem.store dst.toInt.toNat v }).advance n) := by
  refine ⟨rfl, ?_, fun k hk => ?_⟩
  · simp only [State.advance_toImage, State.withImage_toImage]
    rw [Image.word_store _ hm, if_pos rfl]
  · simp only [State.advance_toImage, State.withImage_toImage]
    rw [Image.word_store _ hm, if_neg hk]

theorem binaryStore_readable (f : Word → Word → Word) (a b : Operand) (dst : Word) (s : State)
    (ha : Readable a s) (hb : Readable b s) :
    binaryStore f a b dst s = storeAndAdvance dst (f (operandWord a s) (operandWord b s)) 3 s := by
  rw [binaryStore, value_readable a s ha, attempt_ok, value_readable b s hb, attempt_ok]

theorem binaryStore_unreadable (f : Word → Word → Word) (a b : Operand) (dst : Word) (s : State)
    (h : ¬ (Readable a s ∧ Readable b s)) : binaryStore f a b dst s = raise .outOfBounds s := by
  by_cases ha : Readable a s
  · have hb : ¬ Readable b s := fun hb => h ⟨ha, hb⟩
    rw [binaryStore, value_readable a s ha, attempt_ok, value_unreadable b s hb, attempt_error]
  · rw [binaryStore, value_unreadable a s ha, attempt_error]

/-- Everything a format A instruction that answers a next state can do. -/
theorem binaryStore_next (f : Word → Word → Word) (a b : Operand) (dst : Word) (s t : State)
    (h : binaryStore f a b dst s = .next t) :
    (Writable dst s ∧ t = (s.withImage { s.toImage with
        mem := s.mem.store dst.toInt.toNat (f (operandWord a s) (operandWord b s)) }).advance 3) ∨
      t = s.setStatus (.failed .outOfBounds) := by
  by_cases hr : Readable a s ∧ Readable b s
  · rw [binaryStore_readable f a b dst s hr.1 hr.2] at h
    rcases storeAndAdvance_next _ _ _ _ _ h with h | h
    · exact .inl h
    · exact .inr h.2
  · rw [binaryStore_unreadable f a b dst s hr] at h
    exact .inr (Host.Outcome.next.inj h).symm

theorem conditionalJump_readable (taken : Word → Bool) (c t : Operand) (s : State)
    (hc : Readable c s) (ht : Readable t s) :
    conditionalJump taken c t s =
      .next (if taken (operandWord c s) then s.jumpTo (operandWord t s) else s.advance 2) := by
  rw [conditionalJump, value_readable c s hc, attempt_ok, value_readable t s ht, attempt_ok]

theorem conditionalJump_unreadable (taken : Word → Bool) (c t : Operand) (s : State)
    (h : ¬ (Readable c s ∧ Readable t s)) : conditionalJump taken c t s = raise .outOfBounds s := by
  by_cases hc : Readable c s
  · have ht : ¬ Readable t s := fun ht => h ⟨hc, ht⟩
    rw [conditionalJump, value_readable c s hc, attempt_ok, value_unreadable t s ht, attempt_error]
  · rw [conditionalJump, value_unreadable c s hc, attempt_error]

/-- Everything a jump that answers a next state can do: it changes `ip` alone, or fails. -/
theorem conditionalJump_next (taken : Word → Bool) (c o : Operand) (s t : State)
    (h : conditionalJump taken c o s = .next t) :
    (∃ target, t = s.jumpTo target) ∨ t = s.setStatus (.failed .outOfBounds) := by
  by_cases hr : Readable c s ∧ Readable o s
  · rw [conditionalJump_readable taken c o s hr.1 hr.2] at h
    have h := (Host.Outcome.next.inj h).symm
    split at h
    · exact .inl ⟨_, h⟩
    · exact .inl ⟨_, h⟩
  · rw [conditionalJump_unreadable taken c o s hr] at h
    exact .inr (Host.Outcome.next.inj h).symm

end Sys2Proof.Machine
end

