-- ==== Sys2Proof/Laws/PerInstr.lean ====
section
/-! SUPPORT. The per-instruction family CanonicalForm: the words the encoder writes for an instruction are a
canonical instruction word of its opcode and exactly its parameter words (R60, R71). -/

namespace Sys2Proof.Laws.CanonicalForm

/-- The instruction's words are one canonical instruction word with the instruction's opcode, followed by as
many words as the opcode has parameters. -/
def Statement (i : Instr) : Prop :=
  ∃ w ps, encode i = w :: ps ∧ canonicalWord w = true ∧
    w.toNat % 100 = opcodeNumber (opcodeOf i) ∧ ps.length = paramCount (opcodeOf i)

theorem add (a b : Operand) (dst : Word) : Statement (.add a b dst) :=
  ⟨_, _, rfl, (headA_canonical .add rfl _ _).1, (headA_canonical .add rfl _ _).2, rfl⟩

theorem mul (a b : Operand) (dst : Word) : Statement (.mul a b dst) :=
  ⟨_, _, rfl, (headA_canonical .mul rfl _ _).1, (headA_canonical .mul rfl _ _).2, rfl⟩

theorem inp (dst : Word) : Statement (.inp dst) :=
  ⟨_, _, rfl, headW_canonical.1, headW_canonical.2, rfl⟩

theorem out (src : Operand) : Statement (.out src) :=
  ⟨_, _, rfl, (headR_canonical _).1, (headR_canonical _).2, rfl⟩

theorem jnz (cond target : Operand) : Statement (.jnz cond target) :=
  ⟨_, _, rfl, (headJ_canonical .jnz rfl _ _).1, (headJ_canonical .jnz rfl _ _).2, rfl⟩

theorem jz (cond target : Operand) : Statement (.jz cond target) :=
  ⟨_, _, rfl, (headJ_canonical .jz rfl _ _).1, (headJ_canonical .jz rfl _ _).2, rfl⟩

theorem lt (a b : Operand) (dst : Word) : Statement (.lt a b dst) :=
  ⟨_, _, rfl, (headA_canonical .lt rfl _ _).1, (headA_canonical .lt rfl _ _).2, rfl⟩

theorem eq (a b : Operand) (dst : Word) : Statement (.eq a b dst) :=
  ⟨_, _, rfl, (headA_canonical .eq rfl _ _).1, (headA_canonical .eq rfl _ _).2, rfl⟩

theorem halt : Statement .halt :=
  ⟨_, _, rfl, headZ_canonical.1, headZ_canonical.2, rfl⟩

end Sys2Proof.Laws.CanonicalForm
end

