-- ==== Sys2Proof/Laws/Step.lean ====
section
/-! SUPPORT. What a fetch and a step can answer. -/

namespace Sys2Proof.Machine

theorem fetch_outOfBounds (s : State) (h : ¬ s.InBounds s.ip.toInt) : fetch s = .error .outOfBounds := by
  rw [fetch, Image.read_outOfBounds _ _ h]

theorem fetch_inBounds (s : State) (h : s.InBounds s.ip.toInt) :
    fetch s =
      match decodeWord (s.word s.ip.toInt.toNat) with
      | .error e => .error (runErrorOf e)
      | .ok hd => fetchParams s hd := by
  rw [fetch, Image.read_inBounds _ _ h] <;> rfl

theorem fetchParams_inBounds (s : State) (hd : Header) (h : s.InBounds s.ip.toInt)
    (hn : s.ip.toInt + 1 + paramCount hd.op ≤ (s.len : Int)) :
    fetchParams s hd =
      .ok (assemble hd ((List.range (paramCount hd.op)).map fun k => s.word (s.ip.toInt.toNat + 1 + k))) := by
  have h0 := h.1
  rw [fetchParams, Image.slice_inBounds _ _ _ (by omega) hn]
  simp only [show (s.ip.toInt + 1).toNat = s.ip.toInt.toNat + 1 by omega]

theorem fetchParams_outOfBounds (s : State) (hd : Header) (h0 : paramCount hd.op ≠ 0)
    (hn : ¬ s.ip.toInt + 1 + paramCount hd.op ≤ (s.len : Int)) :
    fetchParams s hd = .error .outOfBounds := by
  rw [fetchParams, Image.slice_outOfBounds _ _ _ h0 (by omega)]

/-- A running step whose instruction is fetched is that instruction's effect. -/
theorem step_fetched (s : State) (i : Instr) (hs : s.status = .running) (hf : fetch s = .ok i) :
    step s = exec i s := by
  rw [step, hs]
  simp [hf]

/-- A running step whose fetch, decode or parameter fetch fails enters that error. -/
theorem step_unfetched (s : State) (e : RunError) (hs : s.status = .running) (hf : fetch s = .error e) :
    step s = raise e s := by
  rw [step, hs]
  simp [hf]

/-- Everything a step that answers a next state can do. -/
theorem step_next (s t : State) (h : step s = .next t) :
    s.status = .running ∧
      ((∃ i, fetch s = .ok i ∧ exec i s = .next t) ∨ (∃ e, fetch s = .error e ∧ t = s.setStatus (.failed e))) := by
  unfold step at h
  split at h
  · rename_i hs
    exact ⟨hs, attempt_next _ _ _ _ h⟩
  · cases h
  · cases h

/-- Everything an instruction that answers a next state can do: store one word inside the image and advance,
write `io` and advance, move `ip`, halt, or fail with everything else as it was. -/
theorem exec_next (i : Instr) (s t : State) (h : exec i s = .next t) :
    (∃ dst v n, Writable dst s ∧
        t = (s.withImage { s.toImage with mem := s.mem.store dst.toInt.toNat v }).advance n) ∨
      (∃ v n, t = (s.setIo v).advance n) ∨ (∃ target, t = s.jumpTo target) ∨
      t = s.setStatus .halted ∨ t = s.setStatus (.failed .outOfBounds) := by
  have store : ∀ f a b dst, binaryStore f a b dst s = .next t → _ := fun f a b dst h =>
    binaryStore_next f a b dst s t h
  have jump : ∀ taken c o, conditionalJump taken c o s = .next t → _ := fun taken c o h =>
    conditionalJump_next taken c o s t h
  cases i with
  | add a b dst =>
    rcases store _ _ _ _ h with h | h
    · exact .inl ⟨_, _, _, h⟩
    · exact .inr (.inr (.inr (.inr h)))
  | mul a b dst =>
    rcases store _ _ _ _ h with h | h
    · exact .inl ⟨_, _, _, h⟩
    · exact .inr (.inr (.inr (.inr h)))
  | lt a b dst =>
    rcases store _ _ _ _ h with h | h
    · exact .inl ⟨_, _, _, h⟩
    · exact .inr (.inr (.inr (.inr h)))
  | eq a b dst =>
    rcases store _ _ _ _ h with h | h
    · exact .inl ⟨_, _, _, h⟩
    · exact .inr (.inr (.inr (.inr h)))
  | inp dst =>
    rcases storeAndAdvance_next _ _ _ _ _ h with h | h
    · exact .inl ⟨_, _, _, h⟩
    · exact .inr (.inr (.inr (.inr h.2)))
  | out src =>
    rcases attempt_next _ _ _ _ h with ⟨v, _, h⟩ | ⟨e, he, h⟩
    · exact .inr (.inl ⟨v, _, (Host.Outcome.next.inj h).symm⟩)
    · by_cases hr : Readable src s
      · rw [value_readable _ _ hr] at he; cases he
      · rw [value_unreadable _ _ hr] at he; cases he
        exact .inr (.inr (.inr (.inr h)))
  | jnz c o =>
    rcases jump _ _ _ h with h | h
    · exact .inr (.inr (.inl h))
    · exact .inr (.inr (.inr (.inr h)))
  | jz c o =>
    rcases jump _ _ _ h with h | h
    · exact .inr (.inr (.inl h))
    · exact .inr (.inr (.inr (.inr h)))
  | halt => exact .inr (.inr (.inr (.inl (Host.Outcome.next.inj h).symm)))

/-- Placing words keeps the canonical form. -/
theorem storeAll_wf (m : Memory) (hm : m.wf) (a : Nat) (ws : List Word) : (storeAll m a ws).wf := by
  induction ws generalizing m a with
  | nil => exact hm
  | cons w ws ih => exact ih (m.store a w) (Memory.store_wf m hm a w) (a + 1)

end Sys2Proof.Machine
end

