-- ==== Sys2Proof/Laws/Utf8.lean ====
section
/-! SUPPORT. What reading UTF-8 can answer, one byte at a time. -/

namespace Sys2Proof.Machine

@[simp] theorem utf8From_none_nil : utf8From none [] = some [] := rfl
@[simp] theorem utf8From_some_nil (p : Utf8Pending) : utf8From (some p) [] = none := rfl

/-- A byte that leaves a character unfinished. -/
theorem utf8From_more (pending : Option Utf8Pending) (b : Byte) (bs : List Byte) (q : Utf8Pending)
    (h : utf8Next pending b = some q) (hm : q.more ≠ 0) : utf8From pending (b :: bs) = utf8From (some q) bs := by
  rw [utf8From]
  simp only [h, if_neg hm]

/-- A byte that finishes a character. -/
theorem utf8From_last (pending : Option Utf8Pending) (b : Byte) (bs : List Byte) (q : Utf8Pending) (c : Char)
    (h : utf8Next pending b = some q) (hm : q.more = 0) (hc : q.char = some c) :
    utf8From pending (b :: bs) = (utf8From none bs).map (c :: ·) := by
  rw [utf8From]
  simp only [h, if_pos hm, hc]
  cases utf8From none bs <;> rfl

/-- Everything a first byte can do to a reading that succeeds. -/
theorem utf8From_cons_some (pending : Option Utf8Pending) (b : Byte) (bs : List Byte) (t : List Char)
    (h : utf8From pending (b :: bs) = some t) :
    ∃ q, utf8Next pending b = some q ∧
      ((q.more ≠ 0 ∧ utf8From (some q) bs = some t) ∨
        (q.more = 0 ∧ ∃ c t', q.char = some c ∧ utf8From none bs = some t' ∧ t = c :: t')) := by
  rw [utf8From] at h
  split at h
  · cases h
  · rename_i q hq
    refine ⟨q, hq, ?_⟩
    split at h
    · rename_i hm
      split at h
      · exact .inr ⟨hm, _, _, ‹_›, ‹_›, (Option.some.inj h).symm⟩
      · cases h
    · exact .inl ⟨‹_›, h⟩

/-- Everything a byte inside a character can do. -/
theorem Utf8Pending.next_some (p q : Utf8Pending) (b : Byte) (h : p.next b = some q) :
    0x80 ≤ b.toNat ∧ b.toNat < 0xC0 ∧
      q = { more := p.more - 1, bits := p.bits * 64 + (b.toNat - 0x80), least := p.least } := by
  unfold Utf8Pending.next at h
  split at h
  · rename_i hb
    exact ⟨hb.1, hb.2, (Option.some.inj h).symm⟩
  · cases h

/-- A character that is finished has the code point read, in no longer a form than it needs. -/
theorem Utf8Pending.char_some (p : Utf8Pending) (c : Char) (h : p.char = some c) :
    p.bits = c.toNat ∧ p.least ≤ p.bits := by
  unfold Utf8Pending.char at h
  split at h
  · rename_i hp
    refine ⟨?_, hp.1⟩
    rw [← Option.some.inj h, Char.ofNat, dif_pos hp.2]
    rfl
  · cases h

end Sys2Proof.Machine
end

