-- ==== Sys2Proof/Tests/Slice0.lean ====
section
/-! SUPPORT. Tests. Expected results come from spec/: the vectors of 95_test_vectors.md by their ids and the
tables of 30_encoding.md. The second half gives each statement with hypotheses a state that meets them. -/

namespace Sys2Proof.Tests

open Sys2Proof Sys2Proof.Machine Sys2Proof.Claims

/-- A run entered on an image of these integers. -/
def start (ws : List Int) (input : Int) : State := runEntry (Image.fromWords (ws.map wrapW)) (wrapW input)

/-- The same with `ip` elsewhere. -/
def startAt (ip : Int) (ws : List Int) (input : Int) : State := (start ws input).jumpTo (wrapW ip)

/-- The next state, where there is one. -/
def next? (o : Host.Outcome State Fault Refusal) : Option State :=
  match o with
  | .next t => some t
  | .fault _ => none
  | .refused _ => none

/-- What one step leaves: the word at `a`, `ip`, `io` and `status`. -/
def after (a : Nat) (s : State) : Option (Int × Int × Int × RunStatus) :=
  (next? (step s)).map fun t => ((t.word a).toInt, t.ip.toInt, t.io.toInt, t.status)

/-! Well-formed encodings: one ill-formed word for each check of R71. -/

theorem test_canonical_list : [(1 : Word), 101, 1001, 1101, 2, 3, 4, 104, 1105, 1006, 1107, 1108, 99].all canonicalWord = true := by
  decide
theorem test_ill_negative : canonicalWord (wrapW (-99)) = false := by decide
theorem test_ill_opcode : canonicalWord 50 = false := by decide
theorem test_ill_extra_digit : canonicalWord 10099 = false ∧ canonicalWord 1104 = false := by decide
theorem test_ill_value_digit : canonicalWord 201 = false := by decide
theorem test_ill_write_digit : canonicalWord 11101 = false ∧ canonicalWord 103 = false := by decide
theorem test_ill_length : canonicalEncoding [1101, 1, 1] = false ∧ canonicalEncoding [99, 0] = false := by decide
theorem test_instr_wellFormed : (Instr.add (.position 5) (.immediate 6) 0).wellFormed = true := by decide

/-! Decoding, from words written out from Table E1, Table E1b and Table E2 (30_encoding.md). -/

theorem test_decode_add : decode [1001, 4, wrapW (-99), 4] = .ok (.add (.position 4) (.immediate (wrapW (-99))) 4, []) := by
  decide
theorem test_decode_mul : decode [102, 6, 7, 0, 99] = .ok (.mul (.immediate 6) (.position 7) 0, [99]) := by decide
theorem test_decode_inp : decode [3, 9] = .ok (.inp 9, []) := by decide
theorem test_decode_out : decode [4, 9] = .ok (.out (.position 9), []) := by decide
theorem test_decode_jnz : decode [1005, 20, 22] = .ok (.jnz (.position 20) (.immediate 22), []) := by decide
theorem test_decode_jz : decode [106, 1, 50] = .ok (.jz (.immediate 1) (.position 50), []) := by decide
theorem test_decode_lt : decode [107, 8, 21, 20] = .ok (.lt (.immediate 8) (.position 21) 20, []) := by decide
theorem test_decode_eq : decode [1008, 21, 8, 20] = .ok (.eq (.position 21) (.immediate 8) 20, []) := by decide
theorem test_decode_halt : decode [99] = .ok (.halt, []) := by decide
/-- OUT4, HLT2, ADD8, IN2: digits that select nothing. -/
theorem test_decode_superfluous :
    decode [1104, 5] = .ok (.out (.immediate 5), []) ∧ decode [10099] = .ok (.halt, []) ∧
      decode [11101, 2, 3, 0] = decode [1101, 2, 3, 0] ∧ decode [103, 0] = decode [3, 0] := by decide
/-- XOP1 to XOP10. -/
theorem test_unknown_opcodes :
    [(50 : Int), 0, 100, 9, 98, 10, -1, -99, -101, 250].all
      (fun w => decide (decodeWord (wrapW w) = .error .unknownOpcode)) = true := by decide
/-- UM1 to UM7. -/
theorem test_unknown_modes :
    [(201 : Int), 901, 21101, 20001, 299, 2104, 100000000000000299].all
      (fun w => decide (decodeWord (wrapW w) = .error .unknownParameterMode)) = true := by decide
theorem test_encode_eq : encode (.eq (.position 21) (.immediate 8) 20) = [1008, 21, 8, 20] := by decide
theorem test_table_word :
    decodeTableWord 16 1101 = some (.add (.immediate 0) (.immediate 0) 0) ∧ decodeTableWord 8 99 = some .halt ∧
      decodeTableWord 8 50 = none := by decide

/-! One step of each instruction (95_test_vectors.md part 2), at most two each. -/

theorem test_ADD1 : after 0 (start [1, 5, 6, 0, 99, 20, 22] 0) = some (42, 4, 0, .running) := by decide
theorem test_ADD5 :
    after 0 (start [1101, 9223372036854775807, 1, 0, 99] 0) = some (-9223372036854775808, 4, 0, .running) := by decide
theorem test_MUL1 : after 0 (start [2, 5, 6, 0, 99, 6, 7] 0) = some (42, 4, 0, .running) := by decide
theorem test_MUL8 :
    after 0 (start [1102, 3037000500, 3037000500, 0, 99] 0) = some (-9223372036709301616, 4, 0, .running) := by decide
theorem test_IN1 : after 0 (start [3, 0, 99] 7) = some (7, 2, 7, .running) := by decide
theorem test_IN5 : after 0 (start [3, -1, 99] 7) = some (3, 0, 7, .failed .outOfBounds) := by decide
theorem test_OUT1 : after 0 (start [4, 0, 99] 7) = some (4, 2, 4, .running) := by decide
theorem test_OUT3 : after 0 (start [4, 3, 99] 7) = some (4, 0, 7, .failed .outOfBounds) := by decide
theorem test_JMP3 : after 0 (start [5, 0, 4, 99, 3] 0) = some (5, 3, 0, .running) := by decide
theorem test_JMP11 : after 0 (start [105, 0, 50, 99] 0) = some (105, 0, 0, .failed .outOfBounds) := by decide
theorem test_JMP8 : after 0 (start [6, 3, 4, 0, 5, 99] 0) = some (6, 5, 0, .running) := by decide
theorem test_JMP7 : after 0 (start [1106, 1, 4, 99] 0) = some (1106, 3, 0, .running) := by decide
theorem test_LT4 : after 0 (start [1107, -1, 0, 0, 99] 0) = some (1, 4, 0, .running) := by decide
theorem test_LT5 : after 0 (start [1107, 0, -1, 0, 99] 0) = some (0, 4, 0, .running) := by decide
theorem test_EQ4 : after 5 (start [8, 5, 6, 5, 99, 0, 0] 0) = some (1, 4, 0, .running) := by decide
theorem test_EQ2 : after 0 (start [1108, 8, 9, 0, 99] 0) = some (0, 4, 0, .running) := by decide
theorem test_HLT1 : after 0 (start [99] 5) = some (99, 0, 5, .halted) := by decide
theorem test_UM5 : after 0 (start [299] 0) = some (299, 0, 0, .failed .unknownParameterMode) := by decide
/-- A jump out of the image completes (JMP10), and the next fetch fails. -/
theorem test_JMP10 : after 0 (start [1105, 1, -5] 0) = some (1105, -5, 0, .running) := by decide
theorem test_JMP10_fetch : after 0 (startAt (-5) [1105, 1, -5] 0) = some (1105, -5, 0, .failed .outOfBounds) := by decide
/-- OOB2, UM8, OOB9: the parameter fetch, decode before it, and the fetch at `ip` = `len`. -/
theorem test_OOB2 : after 0 (start [1101, 1, 1] 0) = some (1101, 0, 0, .failed .outOfBounds) := by decide
theorem test_UM8 : after 0 (start [201, 0, 0] 0) = some (201, 0, 0, .failed .unknownParameterMode) := by decide
theorem test_OOB9 : after 0 (startAt 4 [2, 1, 1, 0] 0) = some (2, 4, 0, .failed .outOfBounds) := by decide

/-! The loader (TXT1 to TXT11) and the host's side. -/

theorem test_TXT11 : parse ['0', '0', '7', ',', '-', '0', '\n'] = .ok [7, 0] := by decide
theorem test_TXT_malformed :
    [[], ['1', ',', ',', '2'], ['1', ',', '2', ','], ['1', ',', 'x', ',', '2'], ['1', ',', ' ', '2'], ['+', '5']].all
      (fun t => decide (parse t = .error .malformedLiteral)) = true := by decide
theorem test_TXT9 : parse "9223372036854775808".toList = .error .malformedLiteral := by decide
theorem test_TXT10 : parse "-9223372036854775808".toList = .ok [wrapW (-9223372036854775808)] := by decide
/-- The examples of RFC 3629, section 7 (outside the spec, log 32), and bytes that are no UTF-8: a byte that begins
nothing, a character cut off, one in a longer form than it needs, a surrogate, a code point above 10FFFF. -/
theorem test_utf8_examples :
    (utf8Decode [0x41, 0xE2, 0x89, 0xA2, 0xCE, 0x91, 0x2E]).map (List.map Char.toNat) =
        some [0x41, 0x2262, 0x391, 0x2E] ∧
      (utf8Decode [0xF0, 0xA3, 0x8E, 0xB4]).map (List.map Char.toNat) = some [0x233B4] := by decide
theorem test_utf8_refused :
    ([[0x80], [0xFF], [0x37, 0xCE], [0xC0, 0xAC], [0xED, 0xA0, 0x80], [0xF4, 0x90, 0x80, 0x80]] : List (List Byte)).all
      (fun bs => decide (utf8Decode bs = none) && decide (parseBytes bs = .error .malformedLiteral)) = true := by decide
/-- A byte order mark and a digit of another script are characters, and no part of a token. -/
theorem test_utf8_not_a_token :
    ([[0xEF, 0xBB, 0xBF, 0x37], [0xD9, 0xA1]] : List (List Byte)).all
      (fun bs => decide (utf8Decode bs ≠ none) && decide (parseBytes bs = .error .malformedLiteral)) = true := by decide
theorem test_error_codes :
    [ErrorKind.malformedLiteral, .run .outOfBounds, .run .unknownOpcode, .run .unknownParameterMode].map errorCode =
      [1, 2, 3, 4] := by decide
theorem test_result : runResult ((start [99] 5).setStatus .halted) = some (.ok 5) ∧ runResult (start [99] 5) = none := by
  decide
theorem test_run_refused :
    transact (.run 9223372036854775808) (.loaded (Image.fromWords [99])) = .error .inputOutOfRange ∧
      transact (.read 0) (.entered (start [99] 0)) = .error .runInProgress := by decide
theorem test_reset_is_run_entry : State.reset = runEntry { len := 0, mem := [] } 0 := rfl
theorem test_reset_memory : State.reset.mem.wf := by decide
theorem test_placed : next? (step (State.reset.withFetchWord 16 1101)) =
    next? (exec (.add (.immediate 0) (.immediate 0) 0) (State.reset.withFetchWord 16 1101)) := by decide
/-- A memory that is not in canonical form is told apart: out of order, listed twice, a listed 0. -/
theorem test_ill_memory :
    ¬ Memory.wf [(3, 1), (2, 1)] ∧ ¬ Memory.wf [(2, 1), (2, 5)] ∧ ¬ Memory.wf [(2, 0)] := by decide

/-! Witnesses: for each statement with hypotheses, a state and operands that meet them all. -/

/-- The mode fields of the witnesses have no digit above 1. -/
theorem digitsValid_of (s : State) (h : 0 ≤ (instrWord s).toInt)
    (hv : modeDigitsValid ((instrWord s).toNat / 100) = true) : DigitsValid (instrWord s) :=
  (modeDigitsValid_iff _ (modeField_lt _ h)).1 hv

theorem witness_CanonicalEncodingRoundTrip : canonicalEncoding [1105, 1, 46] = true := by decide
theorem witness_DecoderFollowsItsRule_negative : (wrapW (-1)).toInt < 0 := by decide
theorem witness_DecoderFollowsItsRule_unsupported : 0 ≤ (9 : Word).toInt ∧ (9 : Word).toNat % 100 ∉ supported := by decide
theorem witness_DecoderFollowsItsRule_digit :
    0 ≤ (299 : Word).toInt ∧ (299 : Word).toNat % 100 ∈ supported ∧ ¬ DigitsValid 299 :=
  ⟨by decide, by decide, fun h => absurd (h 0) (by decide)⟩
theorem witness_DecoderFollowsItsRule_valid :
    0 ≤ (10099 : Word).toInt ∧ (10099 : Word).toNat % 100 ∈ supported ∧ DigitsValid 10099 :=
  ⟨by decide, by decide, (modeDigitsValid_iff _ (by decide)).1 (by decide)⟩
theorem witness_UnknownOpcodeFaults : (start [98] 0).status = .running ∧ (start [98] 0).InBounds (start [98] 0).ip.toInt ∧
    0 ≤ (instrWord (start [98] 0)).toInt ∧ (instrWord (start [98] 0)).toNat % 100 ∉ supported := by decide
theorem witness_OtherDecodeErrorsFault_negative : (start [-1] 0).status = .running ∧
    (start [-1] 0).InBounds (start [-1] 0).ip.toInt ∧ (instrWord (start [-1] 0)).toInt < 0 := by decide
theorem witness_OtherDecodeErrorsFault_digit : (start [20001] 0).status = .running ∧
    (start [20001] 0).InBounds (start [20001] 0).ip.toInt ∧ 0 ≤ (instrWord (start [20001] 0)).toInt ∧
    (instrWord (start [20001] 0)).toNat % 100 ∈ supported ∧
    ∃ k, 2 ≤ digit k ((instrWord (start [20001] 0)).toNat / 100) :=
  ⟨by decide, by decide, by decide, by decide, 2, by decide⟩
theorem witness_WriteDigitIsIgnored_A : 0 ≤ (1101 : Word).toInt ∧ (1101 : Word).toNat % 100 ∈ [1, 2, 7, 8] ∧
    digit 4 (1101 : Word).toNat = 0 := by decide
theorem witness_WriteDigitIsIgnored_W : 0 ≤ (3 : Word).toInt ∧ (3 : Word).toNat % 100 = 3 ∧ digit 2 (3 : Word).toNat = 0 := by
  decide
theorem witness_WriteDigitIsIgnored_address : decode ((3 : Word) :: [21]) = .ok (.inp 21, []) ∧
    destinationOf (.inp 21) = some 21 := by decide
theorem witness_ExtraDigitsSelectNothing : decodeWord 1104 = .ok ⟨.out, [.immediate]⟩ := by decide
theorem witness_ReadIsBoundsChecked : (Image.fromWords [7, 8]).InBounds 0 ∧ (Image.fromWords [7, 8]).InBounds 1 ∧
    ((Image.fromWords [7, 8]).len : Int) ≤ 2 := by decide
theorem witness_WriteChangesOneWord : (Image.fromWords [7, 0, 8]).mem.wf ∧ (0 : Int) ≤ 2 ∧
    (2 : Int) < ((Image.fromWords [7, 0, 8]).len : Int) ∧ ((Image.fromWords [7, 0, 8]).len : Int) ≤ 3 := by decide
theorem witness_SliceIsContiguousOrFails : (1 : Nat) ≤ 2 ∧ (1 : Int) + (2 : Nat) ≤ ((Image.fromWords [7, 0, 8]).len : Int) ∧
    ((Image.fromWords [7, 0, 8]).len : Int) < 2 + (2 : Nat) := by decide
theorem witness_CanonicalMemoryIsUnique : Memory.wf [(0, 7), (2, 8)] ∧
    ∀ a, Memory.lookup [(0, 7), (2, 8)] a = (Memory.store [(2, 8)] 0 7).lookup a := ⟨by decide, fun _ => rfl⟩
theorem witness_StepRunsTheDecodedInstruction : (start [3, 0, 99] 7).status = .running ∧
    (start [3, 0, 99] 7).slice (start [3, 0, 99] 7).ip.toInt 3 = .ok [3, 0, 99] ∧
    decode [3, 0, 99] = .ok (.inp 0, [99]) := by decide
theorem witness_FetchOutsideImageFaults : (startAt 2 [3, 0] 7).status = .running ∧
    ((startAt 2 [3, 0] 7).len : Int) ≤ (startAt 2 [3, 0] 7).ip.toInt ∧ (startAt (-1) [3, 0] 7).ip.toInt < 0 := by decide
theorem witness_ParameterFetchIsOneSlice_outside : (start [3] 6).status = .running ∧
    (start [3] 6).InBounds (start [3] 6).ip.toInt ∧ decodeWord (instrWord (start [3] 6)) = .ok ⟨.inp, [.position]⟩ ∧
    ((start [3] 6).len : Int) < (start [3] 6).ip.toInt + 1 + paramCount .inp := by decide
theorem witness_ParameterFetchIsOneSlice_inside : (start [3, 0] 6).status = .running ∧
    (start [3, 0] 6).InBounds (start [3, 0] 6).ip.toInt ∧ decodeWord (instrWord (start [3, 0] 6)) = .ok ⟨.inp, [.position]⟩ ∧
    (start [3, 0] 6).ip.toInt + 1 + paramCount .inp ≤ ((start [3, 0] 6).len : Int) := by decide
theorem witness_ParameterFetchIsOneSlice_none : (start [99] 6).status = .running ∧
    (start [99] 6).InBounds (start [99] 6).ip.toInt ∧ decodeWord (instrWord (start [99] 6)) = .ok ⟨.halt, []⟩ ∧
    paramCount .halt = 0 := by decide
theorem witness_FailingStepChangesOnlyStatus : step (start [50] 7) = .next (failed .unknownOpcode (start [50] 7)) := rfl
theorem witness_OnlyTheWriteParameterIsStored : (start [3, 0, 99] 7).mem.wf ∧
    ∃ t, step (start [3, 0, 99] 7) = .next t ∧ t.word 0 ≠ (start [3, 0, 99] 7).word 0 :=
  ⟨by decide, _, rfl, by decide⟩
theorem witness_OnlyOutWritesIo : ∃ t, step (start [104, 42] 7) = .next t ∧ t.io ≠ (start [104, 42] 7).io :=
  ⟨_, rfl, by decide⟩
theorem witness_IpIsWrittenInThreeWays : (start [1105, 1, 100] 0).len ≤ Config.lenMax ∧
    ∃ t, step (start [1105, 1, 100] 0) = .next t ∧ t.ip = 100 := ⟨by decide, _, rfl, by decide⟩
theorem witness_StepKeepsTheInvariant : (start [3, 0, 99] 7).Inv ∧ ∃ t, step (start [3, 0, 99] 7) = .next t :=
  ⟨by decide, _, rfl⟩
theorem witness_LengthIsFixed_step : ∃ t, step (start [3, 0, 99] 7) = .next t := ⟨_, rfl⟩
theorem witness_LengthIsFixed_transact : ∃ p r, transact (.write 0 5) (.loaded (Image.fromWords [99])) = .ok (p, r) :=
  ⟨_, _, rfl⟩
theorem witness_LengthIsFixed_load : ∃ img, hostParse [0x39, 0x39] = .ok (.made img) := ⟨_, rfl⟩
theorem witness_StepRefinesThePseudocode : (start [3, 0, 99] 7).Inv ∧ (start [3, 0, 99] 7).status = .running := by decide

/-- Operands for the format A statements: position 0, immediate −5, destination the last word. -/
theorem witness_formatA_completes : (start [1, 0, 0, 4, 99] 0).mem.wf ∧ Readable (.position 0) (start [1, 0, 0, 4, 99] 0) ∧
    Readable (.immediate (wrapW (-5))) (start [1, 0, 0, 4, 99] 0) ∧ Writable 4 (start [1, 0, 0, 4, 99] 0) := by decide
theorem witness_InStoresTheIoRegister : (start [3, 0] 7).mem.wf ∧ Writable 1 (start [3, 0] 7) := by decide
theorem witness_OutWritesTheIoRegister : Readable (.position 1) (start [4, 1] 7) ∧ Readable (.immediate 9) (start [4, 1] 7) := by
  decide
theorem witness_jumps_complete : Readable (.position 2) (start [5, 2, 0] 7) ∧ Readable (.immediate 100) (start [5, 2, 0] 7) := by
  decide
theorem witness_OperandOutsideImageFaults : ¬ Readable (.position 3) (start [4, 3, 99] 7) ∧
    ¬ Readable (.position (wrapW (-1))) (start [4, 3, 99] 7) ∧ ¬ Writable 3 (start [4, 3, 99] 7) := by decide
theorem witness_OutOfBoundsHasFourPlaces_step : (start [1101, 1, 1, 5, 99] 0).status = .running ∧
    step (start [1101, 1, 1, 5, 99] 0) = .next (failed .outOfBounds (start [1101, 1, 1, 5, 99] 0)) := ⟨by decide, rfl⟩
theorem witness_OutOfBoundsHasFourPlaces_host : (Platform.loaded (Image.fromWords [99])).busy = false ∧
    ¬ (Platform.loaded (Image.fromWords [99])).image.InBounds 1 ∧
    ¬ ((0 : Int) ≤ 0 ∧ (0 : Int) + (2 : Nat) ≤ ((Platform.loaded (Image.fromWords [99])).image.len : Int)) := by decide
theorem witness_InRangeResultIsExact :
    Config.wordMin ≤ (operandWord (.immediate (wrapW 9223372036854775806)) (start [1, 0, 0, 0] 0)).toInt +
        (operandWord (.immediate 1) (start [1, 0, 0, 0] 0)).toInt ∧
      (operandWord (.immediate (wrapW 9223372036854775806)) (start [1, 0, 0, 0] 0)).toInt +
        (operandWord (.immediate 1) (start [1, 0, 0, 0] 0)).toInt ≤ Config.wordMax ∧
      Config.wordMin ≤ (operandWord (.immediate (wrapW (-6))) (start [1, 0, 0, 0] 0)).toInt *
        (operandWord (.immediate 7) (start [1, 0, 0, 0] 0)).toInt ∧
      (operandWord (.immediate (wrapW (-6))) (start [1, 0, 0, 0] 0)).toInt *
        (operandWord (.immediate 7) (start [1, 0, 0, 0] 0)).toInt ≤ Config.wordMax := by decide
theorem witness_InAfterOutStoresTheOutput : (start [104, 42, 3, 5, 99, 0] 7).mem.wf ∧
    Readable (.immediate 42) (start [104, 42, 3, 5, 99, 0] 7) ∧ Writable 5 (start [104, 42, 3, 5, 99, 0] 7) := by decide

/-- A running step that fetches a whole instruction of opcode `op` and n parameters. -/
abbrev FetchesWhole (op n : Nat) (s : State) : Prop :=
  s.Inv ∧ s.status = .running ∧ s.InBounds s.ip.toInt ∧ 0 ≤ (instrWord s).toInt ∧ (instrWord s).toNat % 100 = op ∧
    modeDigitsValid ((instrWord s).toNat / 100) = true ∧ s.ip.toInt + 1 + n ≤ (s.len : Int)

theorem selects_of {op n : Nat} {s : State} (h : FetchesWhole op n s) : s.Inv ∧ Selects op s ∧ Fetched n s :=
  ⟨h.1, ⟨h.2.1, h.2.2.1, h.2.2.2.1, h.2.2.2.2.1⟩, digitsValid_of s h.2.2.2.1 h.2.2.2.2.2.1, h.2.2.2.2.2.2⟩

theorem witness_AddStepRule_completes : ∃ s : State, (s.Inv ∧ Selects 1 s ∧ Fetched 3 s) ∧ Readable (valueAt s 0) s ∧
    Readable (valueAt s 1) s ∧ Writable (rawParam s 2) s :=
  ⟨start [1, 5, 6, 0, 99, 20, 22] 0, selects_of (by decide), by decide, by decide, by decide⟩
theorem witness_AddStepRule_faults : ∃ s : State, (s.Inv ∧ Selects 1 s ∧ Fetched 3 s) ∧
    ¬ (Readable (valueAt s 0) s ∧ Readable (valueAt s 1) s ∧ Writable (rawParam s 2) s) :=
  ⟨start [1101, 1, 1, 5, 99] 0, selects_of (by decide), by decide⟩
theorem witness_MulStepRule_completes : ∃ s : State, (s.Inv ∧ Selects 2 s ∧ Fetched 3 s) ∧ Readable (valueAt s 0) s ∧
    Readable (valueAt s 1) s ∧ Writable (rawParam s 2) s :=
  ⟨start [2, 5, 6, 0, 99, 6, 7] 0, selects_of (by decide), by decide, by decide, by decide⟩
theorem witness_MulStepRule_faults : ∃ s : State, (s.Inv ∧ Selects 2 s ∧ Fetched 3 s) ∧
    ¬ (Readable (valueAt s 0) s ∧ Readable (valueAt s 1) s ∧ Writable (rawParam s 2) s) :=
  ⟨start [2, 5, 0, 0, 99] 0, selects_of (by decide), by decide⟩
theorem witness_LtStepRule_completes : ∃ s : State, (s.Inv ∧ Selects 7 s ∧ Fetched 3 s) ∧ Readable (valueAt s 0) s ∧
    Readable (valueAt s 1) s ∧ Writable (rawParam s 2) s :=
  ⟨start [7, 5, 6, 0, 99, -3, -2] 0, selects_of (by decide), by decide, by decide, by decide⟩
theorem witness_LtStepRule_faults : ∃ s : State, (s.Inv ∧ Selects 7 s ∧ Fetched 3 s) ∧
    ¬ (Readable (valueAt s 0) s ∧ Readable (valueAt s 1) s ∧ Writable (rawParam s 2) s) :=
  ⟨start [1007, -1, 0, 0, 99] 0, selects_of (by decide), by decide⟩
theorem witness_EqStepRule_completes : ∃ s : State, (s.Inv ∧ Selects 8 s ∧ Fetched 3 s) ∧ Readable (valueAt s 0) s ∧
    Readable (valueAt s 1) s ∧ Writable (rawParam s 2) s :=
  ⟨start [8, 5, 6, 5, 99, 0, 0] 0, selects_of (by decide), by decide, by decide, by decide⟩
theorem witness_EqStepRule_faults : ∃ s : State, (s.Inv ∧ Selects 8 s ∧ Fetched 3 s) ∧
    ¬ (Readable (valueAt s 0) s ∧ Readable (valueAt s 1) s ∧ Writable (rawParam s 2) s) :=
  ⟨start [1108, 1, 1, 9, 99] 0, selects_of (by decide), by decide⟩
theorem witness_JnzStepRule_taken : ∃ s : State, (s.Inv ∧ Selects 5 s ∧ Fetched 2 s) ∧ Readable (valueAt s 0) s ∧
    Readable (valueAt s 1) s ∧ (operandWord (valueAt s 0) s).toInt ≠ 0 :=
  ⟨start [1105, -1, 4, 50, 99] 0, selects_of (by decide), by decide, by decide, by decide⟩
theorem witness_JnzStepRule_notTaken : ∃ s : State, (s.Inv ∧ Selects 5 s ∧ Fetched 2 s) ∧ Readable (valueAt s 0) s ∧
    Readable (valueAt s 1) s ∧ ¬ (operandWord (valueAt s 0) s).toInt ≠ 0 :=
  ⟨start [1105, 0, 4, 99] 0, selects_of (by decide), by decide, by decide, by decide⟩
theorem witness_JnzStepRule_faults : ∃ s : State, (s.Inv ∧ Selects 5 s ∧ Fetched 2 s) ∧
    ¬ (Readable (valueAt s 0) s ∧ Readable (valueAt s 1) s) :=
  ⟨start [105, 0, 50, 99] 0, selects_of (by decide), by decide⟩
theorem witness_JzStepRule_taken : ∃ s : State, (s.Inv ∧ Selects 6 s ∧ Fetched 2 s) ∧ Readable (valueAt s 0) s ∧
    Readable (valueAt s 1) s ∧ (operandWord (valueAt s 0) s).toInt = 0 :=
  ⟨start [6, 3, 4, 0, 5, 99] 0, selects_of (by decide), by decide, by decide, by decide⟩
theorem witness_JzStepRule_notTaken : ∃ s : State, (s.Inv ∧ Selects 6 s ∧ Fetched 2 s) ∧ Readable (valueAt s 0) s ∧
    Readable (valueAt s 1) s ∧ ¬ (operandWord (valueAt s 0) s).toInt = 0 :=
  ⟨start [1106, 1, 4, 99] 0, selects_of (by decide), by decide, by decide, by decide⟩
theorem witness_JzStepRule_faults : ∃ s : State, (s.Inv ∧ Selects 6 s ∧ Fetched 2 s) ∧
    ¬ (Readable (valueAt s 0) s ∧ Readable (valueAt s 1) s) :=
  ⟨start [106, 1, 50, 99] 0, selects_of (by decide), by decide⟩
theorem witness_InStepRule_completes : ∃ s : State, (s.Inv ∧ Selects 3 s ∧ Fetched 1 s) ∧ Writable (rawParam s 0) s :=
  ⟨start [103, 0, 99] 7, selects_of (by decide), by decide⟩
theorem witness_InStepRule_faults : ∃ s : State, (s.Inv ∧ Selects 3 s ∧ Fetched 1 s) ∧ ¬ Writable (rawParam s 0) s :=
  ⟨start [3, 3, 99] 7, selects_of (by decide), by decide⟩
theorem witness_OutStepRule_completes : ∃ s : State, (s.Inv ∧ Selects 4 s ∧ Fetched 1 s) ∧ Readable (valueAt s 0) s :=
  ⟨start [4, 0] 7, selects_of (by decide), by decide⟩
theorem witness_OutStepRule_faults : ∃ s : State, (s.Inv ∧ Selects 4 s ∧ Fetched 1 s) ∧ ¬ Readable (valueAt s 0) s :=
  ⟨start [4, 3, 99] 7, selects_of (by decide), by decide⟩
/-- HALT at the last address, after another instruction's words. -/
theorem witness_HaltStepRule : ∃ s : State, (s.Inv ∧ Selects 99 s ∧ Fetched 0 s) ∧ s.ip.toInt + 1 = (s.len : Int) :=
  ⟨startAt 4 [2, 0, 0, 0, 99] 0, selects_of (by decide), by decide⟩
/-- The clauses of `ChecksBefore`: a truncated instruction, and a bad digit. -/
theorem witness_ChecksBefore_truncated : ∃ s : State, (s.Inv ∧ Selects 1 s ∧ Fetched 2 s) ∧
    (s.len : Int) < s.ip.toInt + 1 + (3 : Nat) :=
  ⟨start [1101, 1, 1] 0, selects_of (by decide), by decide⟩
theorem witness_ChecksBefore_digit : ∃ s : State, s.Inv ∧ Selects 99 s ∧ ¬ DigitsValid (instrWord s) :=
  ⟨start [299] 0, by decide, ⟨by decide, by decide, by decide, by decide⟩, fun h => absurd (h 0) (by decide)⟩

theorem witness_TerminalStatusIsFinal : Over ((start [99] 0).setStatus .halted) ∧
    Over ((start [99] 0).setStatus (.failed .outOfBounds)) := by decide
theorem witness_RunEntrySetsThreeRegisters :
    (Platform.loaded (Image.fromWords [99])).busy = false ∧
      (Platform.entered ((start [99] 0).setStatus .halted)).busy = false ∧
      Config.wordMin ≤ Config.wordMax := by decide
theorem witness_NoOutKeepsTheInput : ∀ k < 1, ∀ src, fetch (runLoop k (start [99] 5)) ≠ .ok (.out src) := by
  intro k hk src h
  obtain rfl : k = 0 := by omega
  cases h
theorem witness_EveryRunKeepsTheInvariant : ∃ img, hostParse [0x31, 0x2C, 0x30] = .ok (.made img) := ⟨_, rfl⟩
theorem witness_ParseIsTokenByToken : parse ['1', ',', '-', '2'] = .ok [1, wrapW (-2)] ∧
    ∃ t ∈ splitCommas (stripTrailing ['1', ',']), parseToken t = none := ⟨by decide, [], by decide, by decide⟩
theorem witness_LiteralRoundTrip : ([wrapW (-1), 8] : List Word) ≠ [] ∧ [' ', '\n'].all isTrailing = true := by decide
theorem witness_HostWriteIsAPatch : (Platform.entered ((start [99, 5] 0).setStatus .halted)).busy = false ∧
    (Platform.entered ((start [99, 5] 0).setStatus .halted)).image.mem.wf ∧
    (Platform.entered ((start [99, 5] 0).setStatus .halted)).image.InBounds 1 ∧
    ¬ (Platform.entered ((start [99, 5] 0).setStatus .halted)).image.InBounds 2 := by decide
theorem witness_HostHasNoMoveDuringARun : (start [99] 0).status = .running ∧
    ∃ p' r, transact (.parse [0x39, 0x39]) (.entered (start [99] 0)) = .ok (p', r) := ⟨by decide, _, _, rfl⟩
theorem witness_TransactionsKeepTheInvariant : (Platform.loaded (Image.fromWords [99])).image.Inv ∧
    ∃ p' img, transact .clone (.loaded (Image.fromWords [99])) = .ok (p', .made img) := ⟨by decide, _, _, rfl⟩
/-- Core 0 has halted, core 1 steps; and both step. -/
theorem witness_CoresAreIndependent_frame : ∃ cs ds : List State, stepCore 1 cs = .next ds ∧ (0 : Nat) ≠ 1 ∧
    (cs[0]?).map (fun s => s.status) = some .halted ∧ ∀ es, stepCore 0 ds ≠ .next es :=
  ⟨[(start [99] 0).setStatus .halted, start [3, 0] 1], _, rfl, by decide, rfl, fun _ h => nomatch h⟩
theorem witness_CoresAreIndependent_commute : ∃ cs ds es : List State,
    stepCore 1 cs = .next ds ∧ (0 : Nat) ≠ 1 ∧ stepCore 0 ds = .next es :=
  ⟨[start [99] 0, start [3, 0] 1], _, _, rfl, by decide, rfl⟩
theorem witness_PlacedInstructionRuns : State.reset.mem.wf ∧ decodeTableWord 16 1101 = some (.add (.immediate 0) (.immediate 0) 0) := by
  decide

/-- TXT11 of the spec's vectors as a literal of the grammar, and TXT8, which is none. -/
theorem witness_LiteralGrammar_accepted : LiteralOf ['0', '0', '7', ',', '-', '0', '\n'] [7, 0] :=
  ⟨[['0', '0', '7'], ['-', '0']], ['\n'], by decide,
    .cons ⟨[0, 0, 7], by decide, .inl ⟨by decide, by decide⟩⟩ (.cons ⟨[0], by decide, .inr ⟨by decide, by decide⟩⟩ .nil),
    by simp, by decide⟩
theorem witness_LiteralGrammar_refused : parse ['+', '5'] = .error .malformedLiteral := by decide
theorem witness_HostParseReadsUtf8_text : ([0x37, 0x2C, 0x38] : List Byte) = utf8 ['7', ',', '8'] ∧
    parse ['7', ',', '8'] = .ok [7, 8] ∧
    ([0x2B] : List Byte) = utf8 ['+'] ∧ parse ['+'] = .error .malformedLiteral := by decide
/-- No character of UTF-8 has the byte FF. -/
theorem witness_HostParseReadsUtf8_bytes : ∀ text, ([0xFF] : List Byte) ≠ utf8 text := by
  intro text h
  have hm : (0xFF : Byte) ∈ utf8 text := by simp [← h]
  simp only [utf8, List.mem_flatMap, List.mem_map] at hm
  obtain ⟨c, -, b, hb, hv⟩ := hm
  replace hv := congrArg BitVec.toNat hv
  simp only [String.utf8EncodeChar] at hb
  generalize c.val.toNat = v at hb
  split at hb <;> (try split at hb) <;> (try split at hb) <;>
    simp only [List.mem_cons, List.not_mem_nil, or_false] at hb <;>
    rcases hb with rfl | rfl | rfl | rfl <;> simp at hv <;> omega

end Sys2Proof.Tests
end

section
/-! The laws behind the statements about the state (10_state.md): which instruction makes which change, and what
a step or a host transaction makes of the image. -/

namespace Sys2Proof.Machine

/-- What instruction `i` can make of the state `s`: a checked store at its write parameter, the write of `io`,
a taken jump, the default advance alone, the halt, or error entry. Unlike the cases of `exec_next`, each names the
instructions that have it and the operands its values come from. -/
inductive ExecEffect (i : Instr) (s : State) : State → Prop
  | store {dst v : Word} {img : Image} (hd : destinationOf i = some dst)
      (hw : s.toImage.write dst.toInt v = .ok img) :
      ExecEffect i s ((s.withImage img).advance (paramCount (opcodeOf i)))
  | output {src : Operand} (hi : i = .out src) :
      ExecEffect i s ((s.setIo (operandWord src s)).advance (paramCount (opcodeOf i)))
  | jump {c target : Operand} (hi : i = .jnz c target ∨ i = .jz c target) :
      ExecEffect i s (s.jumpTo (operandWord target s))
  | fallThrough {c target : Operand} (hi : i = .jnz c target ∨ i = .jz c target) :
      ExecEffect i s (s.advance (paramCount (opcodeOf i)))
  | halt (hi : i = .halt) : ExecEffect i s (s.setStatus .halted)
  | fail : ExecEffect i s (s.setStatus (.failed .outOfBounds))

theorem ExecEffect.of_storeAndAdvance {i : Instr} {s t : State} {dst v : Word} {n : Nat}
    (hd : destinationOf i = some dst) (hn : n = paramCount (opcodeOf i))
    (h : storeAndAdvance dst v n s = .next t) : ExecEffect i s t := by
  subst hn
  rcases storeAndAdvance_next _ _ _ _ _ h with ⟨hw, rfl⟩ | ⟨-, rfl⟩
  · exact .store hd (Image.write_inBounds _ _ _ hw)
  · exact .fail

theorem ExecEffect.of_binaryStore {i : Instr} {s t : State} {f : Word → Word → Word} {a b : Operand} {dst : Word}
    (hd : destinationOf i = some dst) (hn : 3 = paramCount (opcodeOf i))
    (h : binaryStore f a b dst s = .next t) : ExecEffect i s t := by
  by_cases hr : Readable a s ∧ Readable b s
  · rw [binaryStore_readable f a b dst s hr.1 hr.2] at h
    exact .of_storeAndAdvance hd hn h
  · rw [binaryStore_unreadable f a b dst s hr] at h
    exact Host.Outcome.next.inj h ▸ .fail

theorem ExecEffect.of_conditionalJump {i : Instr} {s t : State} {taken : Word → Bool} {c target : Operand}
    (hi : i = .jnz c target ∨ i = .jz c target) (hn : 2 = paramCount (opcodeOf i))
    (h : conditionalJump taken c target s = .next t) : ExecEffect i s t := by
  by_cases hr : Readable c s ∧ Readable target s
  · rw [conditionalJump_readable taken c target s hr.1 hr.2] at h
    obtain rfl := Host.Outcome.next.inj h
    split
    · exact .jump hi
    · exact hn ▸ .fallThrough hi
  · rw [conditionalJump_unreadable taken c target s hr] at h
    exact Host.Outcome.next.inj h ▸ .fail

theorem ExecEffect.of_execOut {src : Operand} {s t : State} (h : execOut src s = .next t) :
    ExecEffect (.out src) s t := by
  unfold execOut at h
  by_cases hr : Readable src s
  · rw [value_readable src s hr, attempt_ok] at h
    exact Host.Outcome.next.inj h ▸ .output rfl
  · rw [value_unreadable src s hr, attempt_error] at h
    exact Host.Outcome.next.inj h ▸ .fail

/-- Every next state that an instruction answers is one of its effects. -/
theorem exec_effect {i : Instr} {s t : State} (h : exec i s = .next t) : ExecEffect i s t := by
  cases i with
  | add a b dst => exact .of_binaryStore rfl rfl h
  | mul a b dst => exact .of_binaryStore rfl rfl h
  | inp dst => exact .of_storeAndAdvance rfl rfl h
  | out src => exact .of_execOut h
  | jnz c target => exact .of_conditionalJump (.inl rfl) rfl h
  | jz c target => exact .of_conditionalJump (.inr rfl) rfl h
  | lt a b dst => exact .of_binaryStore rfl rfl h
  | eq a b dst => exact .of_binaryStore rfl rfl h
  | halt => exact Host.Outcome.next.inj h ▸ .halt rfl

/-- Every next state that a step answers is an effect of the instruction fetched, or the error entry of a failed
fetch. -/
theorem step_effect {s t : State} (h : step s = .next t) :
    s.status = .running ∧
      ((∃ i, fetch s = .ok i ∧ ExecEffect i s t) ∨ ∃ e, t = s.setStatus (.failed e)) := by
  obtain ⟨hs, ⟨i, hf, he⟩ | ⟨e, -, ht⟩⟩ := step_next s t h
  · exact ⟨hs, .inl ⟨i, hf, exec_effect he⟩⟩
  · exact ⟨hs, .inr ⟨e, ht⟩⟩

theorem ExecEffect.image {i : Instr} {s t : State} (h : ExecEffect i s t) :
    t.toImage = s.toImage ∨
      ∃ dst v, destinationOf i = some dst ∧ s.toImage.write dst.toInt v = .ok t.toImage := by
  cases h with
  | store hd hw => exact .inr ⟨_, _, hd, hw⟩
  | output | jump | fallThrough | halt | fail => exact .inl rfl

/-- The image after a step is the image before it, or that image after one write at the write parameter of the
instruction fetched. -/
theorem step_image {s t : State} (h : step s = .next t) :
    t.toImage = s.toImage ∨
      ∃ i dst v, fetch s = .ok i ∧ destinationOf i = some dst ∧
        s.toImage.write dst.toInt v = .ok t.toImage := by
  obtain ⟨-, ⟨i, hf, he⟩ | ⟨e, rfl⟩⟩ := step_effect h
  · obtain hsame | ⟨dst, v, hd, hw⟩ := he.image
    · exact .inl hsame
    · exact .inr ⟨i, dst, v, hf, hd, hw⟩
  · exact .inl rfl

theorem Image.write_len {img img' : Image} {a : Int} {v : Word} (h : img.write a v = .ok img') :
    img'.len = img.len := by
  obtain ⟨-, rfl⟩ := Image.write_ok img img' a v h
  rfl

/-- A write changes no word but the one at its address. -/
theorem Image.write_changed {img img' : Image} {a : Int} {v : Word} {k : Nat} (hm : img.mem.wf)
    (h : img.write a v = .ok img') (hk : img'.word k ≠ img.word k) : a = k := by
  obtain ⟨⟨h0, -⟩, rfl⟩ := Image.write_ok img img' a v h
  rw [Image.word_store img hm] at hk
  have hka : k = a.toNat := by
    by_contra hne
    exact hk (if_neg hne)
  omega

theorem fetch_ok_inBounds {s : State} {i : Instr} (h : fetch s = .ok i) : s.InBounds s.ip.toInt := by
  by_contra hb
  rw [fetch_outOfBounds s hb] at h
  cases h

/-- The default advance from inside an image of at most `LEN_MAX` words does not wrap (R24). -/
theorem advance_toInt {s : State} (hlen : s.len ≤ Config.lenMax) (hip : s.InBounds s.ip.toInt) (op : Opcode) :
    (s.ip + BitVec.ofNat 64 (1 + paramCount op)).toInt = s.ip.toInt + 1 + paramCount op := by
  have hn := paramCount_le op
  obtain ⟨h0, h1⟩ := hip
  have hmax : s.len ≤ 2 ^ 63 - 4 := hlen
  have hstep : (BitVec.ofNat 64 (1 + paramCount op)).toInt = 1 + paramCount op := by
    rw [BitVec.toInt_ofNat', Int.bmod_eq_of_le] <;> omega
  rw [BitVec.toInt_add, hstep, Int.bmod_eq_of_le] <;> omega

/-- Where an effect leaves `ip`: as it was when the run ends, else advanced, or at the target of a jump. -/
theorem ExecEffect.ip {i : Instr} {s t : State} (h : ExecEffect i s t) (hs : s.status = .running) :
    (t.status ≠ .running ∧ t.ip = s.ip) ∨
      (t.status = .running ∧
        (t.ip = s.ip + BitVec.ofNat 64 (1 + paramCount (opcodeOf i)) ∨
          ∃ c target, (i = .jnz c target ∨ i = .jz c target) ∧ t.ip = operandWord target s)) := by
  cases h with
  | store | output | fallThrough => exact .inr ⟨hs, .inl rfl⟩
  | jump hi => exact .inr ⟨hs, .inr ⟨_, _, hi, rfl⟩⟩
  | halt | fail => exact .inl ⟨by simp, rfl⟩

/-- Only OUT writes `io`. -/
theorem ExecEffect.io_changed {i : Instr} {s t : State} (h : ExecEffect i s t) (hio : t.io ≠ s.io) :
    ∃ src, i = .out src ∧ t.io = operandWord src s := by
  cases h with
  | output hi => exact ⟨_, hi, rfl⟩
  | store | jump | fallThrough | halt | fail => exact absurd rfl hio

theorem step_ne_next_of_over {s : State} (h : Over s) (t : State) : step s ≠ .next t :=
  fun hn => h (step_next s t hn).1

theorem runLoop_over {s : State} (h : Over s) (fuel : Nat) : runLoop fuel s = s := by
  cases fuel with
  | zero => rfl
  | succ fuel =>
    unfold runLoop
    split
    · exact absurd ‹_› (step_ne_next_of_over h _)
    · rfl
    · rfl

theorem hostWrite_image (a : Int) (v : Word) (p : Platform) :
    (hostWrite a v p).1.image = p.image ∨ p.image.write a v = .ok (hostWrite a v p).1.image := by
  obtain ⟨img, hw, he⟩ | ⟨he, -⟩ := hostWrite_cases a v p
  · exact .inr (by rw [he, hw, Platform.image_withImage])
  · exact .inl (by rw [he])

theorem hostRun_image {input : Int} {p p' : Platform} {r : Response} (h : hostRun input p = .ok (p', r)) :
    p'.image = p.image := by
  unfold hostRun at h
  split at h
  · cases h
    rfl
  · cases h

/-- A transaction that is refused during a run and yet succeeds is its meaning outside a run. -/
theorem ok_of_unlessBusy {α : Type} {busy : Bool} {r : Except Refusal α} {x : α}
    (h : (if busy then .error .runInProgress else r) = .ok x) : r = .ok x := by
  cases busy with
  | false => exact h
  | true => cases h

/-- The image after a transaction is the image before it, or that image after one write by the host. -/
theorem transact_image {tr : Transaction} {p p' : Platform} {r : Response} (h : transact tr p = .ok (p', r)) :
    p'.image = p.image ∨ ∃ a v, p.image.write a v = .ok p'.image := by
  cases tr with
  | parse bytes =>
    simp only [transact] at h
    split at h
    · cases h
    · cases h
      exact .inl rfl
  | write a v =>
    obtain rfl : (hostWrite a v p).1 = p' := congrArg Prod.fst (Except.ok.inj (ok_of_unlessBusy h))
    exact (hostWrite_image a v p).imp_right fun hw => ⟨a, v, hw⟩
  | run input => exact .inl (hostRun_image (ok_of_unlessBusy h))
  | read a =>
    cases ok_of_unlessBusy h
    exact .inl rfl
  | slice a n =>
    cases ok_of_unlessBusy h
    exact .inl rfl
  | clone =>
    cases ok_of_unlessBusy h
    exact .inl rfl

/-- A literal that loads has one word for each of its tokens, and at least one (R54). -/
theorem hostParse_len {bytes : List Byte} {img : Image} (h : hostParse bytes = .ok (.made img)) :
    ∃ text, utf8Decode bytes = some text ∧ img.len = (splitCommas (stripTrailing text)).length ∧ 1 ≤ img.len := by
  obtain ⟨text, ws, hu, hp, hl⟩ := hostParse_made bytes img h
  have htokens : img.len = (splitCommas (stripTrailing text)).length := by
    rw [(loadWords_ok ws img hl).1]
    exact parseTokens_length _ _ (parse_ok text ws hp)
  have hpos := List.length_pos_of_ne_nil (splitCommas_ne_nil (stripTrailing text))
  exact ⟨text, hu, htokens, by omega⟩

end Sys2Proof.Machine
end

section
/-! The statements about the state (10_state.md), settled. -/

namespace Sys2Proof.Proofs

open Sys2Proof Sys2Proof.Machine Sys2Proof.Claims

/-- Settles O21: a step leaves the image as it is or writes one word of it, and a write keeps the invariant. -/
theorem stepKeepsTheInvariant : Obligations.StepKeepsTheInvariant := by
  intro s t hinv h
  obtain hsame | ⟨i, dst, v, -, -, hw⟩ := step_image h
  · exact (congrArg Image.Inv hsame).mpr hinv
  · exact Image.write_inv _ _ _ _ hinv hw

/-- Settles O18: the only word a step can change is the one it writes, at the write parameter. -/
theorem onlyTheWriteParameterIsStored : Obligations.OnlyTheWriteParameterIsStored := by
  intro s t k hwf h hk
  obtain hsame | ⟨i, dst, v, hf, hd, hw⟩ := step_image h
  · exact absurd (by rw [hsame]) hk
  · exact ⟨i, dst, hf, hd, Image.write_changed hwf hw hk⟩

/-- Settles O19, by the effect of the instruction fetched; error entry leaves `io`. -/
theorem onlyOutWritesIo : Obligations.OnlyOutWritesIo := by
  intro s t h hio
  obtain ⟨-, ⟨i, hf, he⟩ | ⟨e, rfl⟩⟩ := step_effect h
  · obtain ⟨src, rfl, hsrc⟩ := he.io_changed hio
    exact ⟨src, hf, hsrc⟩
  · exact absurd rfl hio

/-- Settles O20: a fetched instruction lies inside the image, so the default advance is the sum of integers. -/
theorem ipIsWrittenInThreeWays : Obligations.IpIsWrittenInThreeWays := by
  refine ⟨runEntry_ip, fun s t hlen h => ?_⟩
  obtain ⟨hs, ⟨i, hf, he⟩ | ⟨e, rfl⟩⟩ := step_effect h
  · obtain hended | ⟨ht, hadv | hjump⟩ := he.ip hs
    · exact .inl hended
    · exact .inr ⟨ht, i, hf, .inl (by rw [hadv, advance_toInt hlen (fetch_ok_inBounds hf)])⟩
    · exact .inr ⟨ht, i, hf, .inr hjump⟩
  · exact .inl ⟨by simp, rfl⟩

/-- Settles O23: steps and transactions change the image by writes alone, and a write keeps the length. -/
theorem lengthIsFixed : Obligations.LengthIsFixed := by
  refine ⟨fun s t h => ?_, fun tr p p' r h => ?_, fun bytes img h => hostParse_len h⟩
  · obtain hsame | ⟨i, dst, v, -, -, hw⟩ := step_image h
    · rw [hsame]
    · exact Image.write_len hw
  · obtain hsame | ⟨a, v, hw⟩ := transact_image h
    · rw [hsame]
    · exact Image.write_len hw

/-- Settles O47: a step that answers a next state starts in `Running`. -/
theorem terminalStatusIsFinal : Obligations.TerminalStatusIsFinal :=
  fun _ fuel h => ⟨step_ne_next_of_over h, runLoop_over h fuel⟩

/-- Settles O22: with no image, address 0 is outside `[0, len)`. -/
theorem resetMeetsTheInvariant : Obligations.ResetMeetsTheInvariant :=
  ⟨by decide, rfl, rfl, step_unfetched _ _ rfl (fetch_outOfBounds _ (by decide))⟩

end Sys2Proof.Proofs
end

section
/-! The laws behind the statements about memory (20_memory.md): writes, runs, host transactions and the canonical
form of a memory. -/

namespace Sys2Proof.Machine

/-- A listed address of a canonical memory does not read as an unlisted one. -/
theorem Memory.lookup_head_ne {k : Nat} {u : Word} {m : Memory} (h : Memory.wf ((k, u) :: m)) :
    Memory.lookup ((k, u) :: m) k ≠ Memory.unlisted := by
  rw [Memory.lookup_cons, if_pos rfl]
  exact h.2 _ List.mem_cons_self

/-- What a canonical memory reads as at its first address fixes how low another one must begin. -/
theorem Memory.head_le_of_lookup_eq {k k' : Nat} {u u' : Word} {m m' : Memory} (h : Memory.wf ((k, u) :: m))
    (h' : Memory.wf ((k', u') :: m')) (heq : ∀ a, Memory.lookup ((k, u) :: m) a = Memory.lookup ((k', u') :: m') a) :
    k' ≤ k := by
  by_contra hlt
  refine Memory.lookup_head_ne h ((heq k).trans (Memory.lookup_below _ k fun c hc => ?_))
  obtain rfl | hc := List.mem_cons.1 hc
  · exact not_le.1 hlt
  · exact (not_le.1 hlt).trans (Memory.wf_head_lt _ _ h' c hc)

/-- Memories that read the same behind a common first address read the same everywhere. -/
theorem Memory.lookup_tail_eq {k : Nat} {u u' : Word} {m m' : Memory} (h : Memory.wf ((k, u) :: m))
    (h' : Memory.wf ((k, u') :: m')) (heq : ∀ a, Memory.lookup ((k, u) :: m) a = Memory.lookup ((k, u') :: m') a)
    (a : Nat) : m.lookup a = m'.lookup a := by
  by_cases ha : a = k
  · subst ha
    rw [Memory.lookup_below m a (Memory.wf_head_lt _ _ h), Memory.lookup_below m' a (Memory.wf_head_lt _ _ h')]
  · simpa [ha] using heq a

theorem Memory.eq_of_lookup_eq {m m' : Memory} (h : m.wf) (h' : m'.wf) (heq : ∀ a, m.lookup a = m'.lookup a) :
    m = m' := by
  induction m generalizing m' with
  | nil =>
    cases m' with
    | nil => rfl
    | cons c' m' => exact absurd (heq c'.1).symm (Memory.lookup_head_ne h')
  | cons c m ih =>
    obtain ⟨k, u⟩ := c
    cases m' with
    | nil => exact absurd (heq k) (Memory.lookup_head_ne h)
    | cons c' m' =>
      obtain ⟨k', u'⟩ := c'
      obtain rfl : k = k' := le_antisymm (Memory.head_le_of_lookup_eq h' h fun a => (heq a).symm)
        (Memory.head_le_of_lookup_eq h h' heq)
      obtain rfl : u = u' := by simpa using heq k
      rw [ih (Memory.wf_tail _ _ h) (Memory.wf_tail _ _ h') (Memory.lookup_tail_eq h h' heq)]

/-- Outside the image, as two bounds. -/
theorem Image.not_inBounds {img : Image} {a : Int} (h : a < 0 ∨ (img.len : Int) ≤ a) : ¬ img.InBounds a := by
  rintro ⟨h0, h1⟩
  omega

/-- What an image reads as after a successful write. -/
theorem Image.word_write {img img' : Image} {a : Int} {v : Word} (hm : img.mem.wf) (h : img.write a v = .ok img')
    (k : Nat) : img'.word k = if k = a.toNat then v else img.word k := by
  obtain ⟨-, rfl⟩ := Image.write_ok img img' a v h
  exact Image.word_store img hm a.toNat v k

/-- What every step keeps, every run keeps. -/
theorem runLoop_induction {P : State → Prop} (hstep : ∀ s t, P s → step s = .next t → P t) (fuel : Nat) {s : State}
    (hs : P s) : P (runLoop fuel s) := by
  induction fuel generalizing s with
  | zero => exact hs
  | succ fuel ih =>
    unfold runLoop
    split
    · exact ih (hstep s _ hs ‹_›)
    · exact hs
    · exact hs

/-- Every image the loader makes meets the invariant. -/
theorem hostParse_inv {bytes : List Byte} {img : Image} (h : hostParse bytes = .ok (.made img)) : img.Inv := by
  obtain ⟨-, ws, -, -, hl⟩ := hostParse_made bytes img h
  obtain ⟨rfl, hlen⟩ := loadWords_ok ws img hl
  exact Image.fromWords_inv ws hlen

theorem hostRead_ne_made (a : Int) (img img' : Image) : hostRead a img ≠ .made img' := by
  unfold hostRead
  split <;> simp

theorem hostSlice_ne_made (a : Int) (n : Nat) (img img' : Image) : hostSlice a n img ≠ .made img' := by
  unfold hostSlice
  split <;> simp

theorem hostWrite_ne_made (a : Int) (v : Word) (p : Platform) (img : Image) : (hostWrite a v p).2 ≠ .made img := by
  obtain ⟨img', -, he⟩ | ⟨he, -⟩ := hostWrite_cases a v p <;> simp [he]

theorem hostRun_ne_made {input : Int} {p p' : Platform} {img : Image} :
    hostRun input p ≠ .ok (p', .made img) := by
  unfold hostRun
  split <;> simp

/-- An image is made by `parse` or is a copy of the core's own. -/
theorem transact_made {tr : Transaction} {p p' : Platform} {img : Image}
    (h : transact tr p = .ok (p', .made img)) : (∃ bytes, hostParse bytes = .ok (.made img)) ∨ img = p.image := by
  cases tr with
  | parse bytes =>
    simp only [transact] at h
    split at h
    · cases h
    · cases h
      exact .inl ⟨bytes, ‹_›⟩
  | clone =>
    cases ok_of_unlessBusy h
    exact .inr rfl
  | read a => exact absurd (congrArg Prod.snd (Except.ok.inj (ok_of_unlessBusy h))) (hostRead_ne_made _ _ _)
  | write a v => exact absurd (congrArg Prod.snd (Except.ok.inj (ok_of_unlessBusy h))) (hostWrite_ne_made _ _ _ _)
  | slice a n => exact absurd (congrArg Prod.snd (Except.ok.inj (ok_of_unlessBusy h))) (hostSlice_ne_made _ _ _ _)
  | run input => exact absurd (ok_of_unlessBusy h) hostRun_ne_made

end Sys2Proof.Machine
end

section
/-! The loader's grammar (20_memory.md R54): what each of its functions accepts, against the grammar of the
statements and the library's lists and digits. -/

namespace Sys2Proof.Machine

open Sys2Proof.Claims

theorem splitCommas_eq_splitOn (t : List Char) : splitCommas t = t.splitOn ',' := by
  induction t with
  | nil => rfl
  | cons c t ih =>
    rw [splitCommas, List.splitOn_cons_eq_if_modifyHead, ih]
    simp only [beq_iff_eq]
    split
    · rfl
    · cases h : t.splitOn ',' with
      | nil => exact absurd h (List.splitOn_ne_nil ',' t)
      | cons tok toks => rfl

theorem stripTrailing_eq_rdropWhile (t : List Char) : stripTrailing t = t.rdropWhile isTrailing := rfl

theorem isTrailing_iff (c : Char) : isTrailing c = true ↔ c = ' ' ∨ c = '\t' ∨ c = '\r' ∨ c = '\n' := by
  simp [isTrailing, or_assoc]

/-- Trailing white space behind a text that has none is what is stripped. -/
theorem stripTrailing_append {t blank : List Char} (ht : ∀ c ∈ t, isTrailing c = false)
    (hb : ∀ c ∈ blank, isTrailing c = true) : stripTrailing (t ++ blank) = t := by
  have hself : t.rdropWhile isTrailing = t :=
    List.rdropWhile_eq_self_iff.2 fun hl => Bool.not_eq_true _ ▸ ht _ (List.getLast_mem hl)
  rw [stripTrailing_eq_rdropWhile, List.rdropWhile, List.reverse_append,
    List.dropWhile_append_of_pos (by simpa using hb)]
  exact hself

/-- A text is its stripped form and white space behind it. -/
theorem exists_eq_stripTrailing_append (t : List Char) :
    ∃ blank, (∀ c ∈ blank, isTrailing c = true) ∧ t = stripTrailing t ++ blank :=
  ⟨t.rtakeWhile isTrailing, fun _ hc => List.mem_rtakeWhile_imp hc, by
    rw [stripTrailing_eq_rdropWhile, List.rdropWhile_append_rtakeWhile]⟩

theorem isDecimal_iff (c : Char) : isDecimal c = true ↔ ∃ d : Fin 10, Nat.digitChar d.val = c := by
  constructor
  · intro h
    simp only [isDecimal, Bool.and_eq_true, decide_eq_true_eq] at h
    have hlt : c.toNat - 48 < 10 := by omega
    refine ⟨⟨c.toNat - 48, hlt⟩, Char.toNat_inj.1 ?_⟩
    rw [Nat.toNat_digitChar_of_lt_ten hlt]
    omega
  · rintro ⟨d, rfl⟩
    have := Nat.toNat_digitChar_of_lt_ten d.isLt
    simp only [isDecimal, this, Bool.and_eq_true, decide_eq_true_eq]
    omega

/-- Decimal digits are the images of numbers below 10. -/
theorem all_isDecimal_iff (ds : List Char) :
    ds.all isDecimal = true ↔ ∃ fs : List (Fin 10), fs.map (fun d : Fin 10 => Nat.digitChar d.val) = ds := by
  have hrange := Set.range_list_map fun d : Fin 10 => Nat.digitChar d.val
  have hmem := Set.ext_iff.1 hrange ds
  simpa [isDecimal_iff] using hmem.symm

/-- The loader's value of a digit string is the library's. -/
theorem decimalValue_map_digitChar (fs : List (Fin 10)) :
    decimalValue (fs.map fun d : Fin 10 => Nat.digitChar d.val) = Nat.ofDigits 10 (fs.reverse.map Fin.val) := by
  simp [decimalValue, Nat.ofDigits_eq_foldr, List.foldl_map, List.foldr_reverse,
    Nat.toNat_digitChar_sub_48_of_lt_ten, Nat.add_comm, Nat.mul_comm]

theorem parseDigits_eq_some_iff (ds : List Char) (n : Nat) :
    parseDigits ds = some n ↔ ∃ fs : List (Fin 10), fs ≠ [] ∧
      ds = fs.map (fun d : Fin 10 => Nat.digitChar d.val) ∧ n = Nat.ofDigits 10 (fs.reverse.map Fin.val) := by
  unfold parseDigits
  constructor
  · intro h
    split at h
    · rename_i hds
      obtain ⟨hne, hall⟩ := hds
      obtain ⟨fs, rfl⟩ := (all_isDecimal_iff ds).1 hall
      refine ⟨fs, by simpa using hne, rfl, ?_⟩
      rw [← decimalValue_map_digitChar, Option.some.inj h]
    · cases h
  · rintro ⟨fs, hne, rfl, rfl⟩
    rw [if_pos ⟨by simpa using hne, (all_isDecimal_iff _).2 ⟨fs, rfl⟩⟩, decimalValue_map_digitChar]

/-- The characters of a digit string. -/
theorem isDecimal_of_parseDigits {ds : List Char} {n : Nat} (h : parseDigits ds = some n) {c : Char} (hc : c ∈ ds) :
    isDecimal c = true := by
  unfold parseDigits at h
  split at h
  · rename_i hds
    exact List.all_eq_true.1 hds.2 c hc
  · cases h

/-- The grammar's tokens, said with the loader's digit strings. -/
theorem denotes_iff (tok : List Char) (w : Word) :
    Denotes tok w ↔ (∃ n : Nat, parseDigits tok = some n ∧ w.toInt = n) ∨
      ∃ (ds : List Char) (n : Nat), tok = '-' :: ds ∧ parseDigits ds = some n ∧ w.toInt = -(n : Int) := by
  simp only [parseDigits_eq_some_iff]
  constructor
  · rintro ⟨fs, hne, ⟨rfl, hw⟩ | ⟨rfl, hw⟩⟩
    · exact .inl ⟨_, ⟨fs, hne, rfl, rfl⟩, hw⟩
    · exact .inr ⟨_, _, rfl, ⟨fs, hne, rfl, rfl⟩, hw⟩
  · rintro (⟨n, ⟨fs, hne, rfl, rfl⟩, hw⟩ | ⟨ds, n, rfl, ⟨fs, hne, rfl, rfl⟩, hw⟩)
    · exact ⟨fs, hne, .inl ⟨rfl, hw⟩⟩
    · exact ⟨fs, hne, .inr ⟨rfl, hw⟩⟩

theorem parseNumber_minus (ds : List Char) :
    parseNumber ('-' :: ds) = (parseDigits ds).map fun n : Nat => -(n : Int) := rfl

theorem parseNumber_of_parseDigits {ds : List Char} {n : Nat} (h : parseDigits ds = some n) :
    parseNumber ds = some (n : Int) := by
  unfold parseNumber
  split
  · exact absurd (isDecimal_of_parseDigits h List.mem_cons_self) (by decide)
  · rw [h, Option.map_some]

theorem parseNumber_eq_some_iff (tok : List Char) (v : Int) :
    parseNumber tok = some v ↔ (∃ n : Nat, parseDigits tok = some n ∧ v = n) ∨
      ∃ (ds : List Char) (n : Nat), tok = '-' :: ds ∧ parseDigits ds = some n ∧ v = -(n : Int) := by
  constructor
  · intro h
    unfold parseNumber at h
    split at h
    · obtain ⟨n, hn, rfl⟩ := Option.map_eq_some_iff.1 h
      exact .inr ⟨_, n, rfl, hn, rfl⟩
    · obtain ⟨n, hn, rfl⟩ := Option.map_eq_some_iff.1 h
      exact .inl ⟨n, hn, rfl⟩
  · rintro (⟨n, hn, rfl⟩ | ⟨ds, n, rfl, hn, rfl⟩)
    · exact parseNumber_of_parseDigits hn
    · rw [parseNumber_minus, hn, Option.map_some]

/-- A number in the word range is the value of exactly one word, and the value of a word is in the word range. -/
theorem wrapW_eq_iff (v : Int) (w : Word) :
    ((Config.wordMin ≤ v ∧ v ≤ Config.wordMax) ∧ wrapW v = w) ↔ w.toInt = v := by
  constructor
  · rintro ⟨⟨hmin, hmax⟩, rfl⟩
    simp only [Config.wordMin, Config.wordMax, Config.wordBits] at hmin hmax
    rw [wrapW_toInt, Int.bmod_eq_of_le] <;> omega
  · rintro rfl
    have hmin := w.le_toInt
    have hmax := w.toInt_lt
    refine ⟨⟨hmin, ?_⟩, wrapW_toInt_self w⟩
    simp only [Config.wordMax, Config.wordBits]
    omega

theorem parseToken_eq_some_iff_number (tok : List Char) (w : Word) :
    parseToken tok = some w ↔ parseNumber tok = some w.toInt := by
  unfold parseToken
  split
  · simp [*]
  · rename_i v hv
    rw [hv, Option.some_inj, eq_comm (a := v), ← wrapW_eq_iff]
    split
    · rw [Option.some_inj, and_iff_right ‹_›]
    · exact iff_of_false nofun fun h => absurd h.1 ‹_›

/-- The loader accepts exactly the tokens of the grammar, with their values. -/
theorem parseToken_eq_some_iff (tok : List Char) (w : Word) : parseToken tok = some w ↔ Denotes tok w := by
  rw [parseToken_eq_some_iff_number, parseNumber_eq_some_iff, denotes_iff]

/-- A token is made of digits and a minus sign, so it has no comma and no white space. -/
theorem denotes_isDecimal_or_minus {tok : List Char} {w : Word} (h : Denotes tok w) {c : Char} (hc : c ∈ tok) :
    isDecimal c = true ∨ c = '-' := by
  obtain ⟨n, hn, -⟩ | ⟨ds, n, rfl, hn, -⟩ := (denotes_iff tok w).1 h
  · exact .inl (isDecimal_of_parseDigits hn hc)
  · obtain rfl | hc := List.mem_cons.1 hc
    · exact .inr rfl
    · exact .inl (isDecimal_of_parseDigits hn hc)

theorem not_isTrailing_of_isDecimal {c : Char} (h : isDecimal c = true) : isTrailing c = false := by
  obtain ⟨d, rfl⟩ := (isDecimal_iff c).1 h
  revert d
  decide

theorem denotes_not_isTrailing {tok : List Char} {w : Word} (h : Denotes tok w) {c : Char} (hc : c ∈ tok) :
    isTrailing c = false := by
  obtain hd | rfl := denotes_isDecimal_or_minus h hc
  · exact not_isTrailing_of_isDecimal hd
  · rfl

theorem denotes_comma_not_mem {tok : List Char} {w : Word} (h : Denotes tok w) : ',' ∉ tok := by
  intro hc
  obtain hd | he := denotes_isDecimal_or_minus h hc
  · exact absurd hd (by decide)
  · exact absurd he (by decide)

/-- The loader goes through the tokens in order, and takes all of them. -/
theorem parseTokens_eq_some_iff (ts : List (List Char)) (ws : List Word) :
    parseTokens ts = some ws ↔ List.Forall₂ (fun t w => parseToken t = some w) ts ws := by
  induction ts generalizing ws with
  | nil => simp [parseTokens, eq_comm]
  | cons t ts ih =>
    rw [List.forall₂_cons_left_iff]
    simp only [parseTokens, ← ih]
    cases parseToken t <;> cases parseTokens ts <;> simp [eq_comm]

theorem parseTokens_eq_none_iff (ts : List (List Char)) :
    parseTokens ts = none ↔ ∃ t ∈ ts, parseToken t = none := by
  induction ts with
  | nil => simp [parseTokens]
  | cons t ts ih =>
    rw [List.exists_mem_cons_iff, ← ih, parseTokens]
    cases parseToken t <;> cases parseTokens ts <;> simp

theorem parse_eq_ok_iff (text : List Char) (ws : List Word) :
    parse text = .ok ws ↔ parseTokens (splitCommas (stripTrailing text)) = some ws :=
  ⟨parse_ok text ws, fun h => by rw [parse, h]⟩

theorem parse_eq_error_iff (text : List Char) :
    parse text = .error .malformedLiteral ↔ parseTokens (splitCommas (stripTrailing text)) = none :=
  ⟨fun h => (parse_error text _ h).2, fun h => by rw [parse, h]⟩

/-- A text is refused exactly when it parses to no words. -/
theorem parse_eq_error_iff_forall (text : List Char) :
    parse text = .error .malformedLiteral ↔ ∀ ws, parse text ≠ .ok ws := by
  simp only [parse_eq_error_iff, ne_eq, parse_eq_ok_iff, Option.eq_none_iff_forall_ne_some]

/-- The characters of a literal's text before its trailing white space. -/
theorem not_isTrailing_of_mem_intercalate {toks : List (List Char)} {ws : List Word}
    (h : List.Forall₂ Denotes toks ws) : ∀ c ∈ [','].intercalate toks, isTrailing c = false := by
  induction h with
  | nil => simp
  | @cons tok w toks ws htok h ih =>
    intro c hc
    cases toks with
    | nil => exact denotes_not_isTrailing htok (by simpa using hc)
    | cons tok' toks =>
      rw [List.intercalate_cons_cons, List.mem_append, List.mem_append, List.mem_singleton] at hc
      obtain (hc | rfl) | hc := hc
      · exact denotes_not_isTrailing htok hc
      · rfl
      · exact ih c hc

/-- Splitting a literal gives back its tokens. -/
theorem splitCommas_intercalate {toks : List (List Char)} {ws : List Word} (h : List.Forall₂ Denotes toks ws)
    (hne : ws ≠ []) : splitCommas ([','].intercalate toks) = toks := by
  rw [splitCommas_eq_splitOn]
  refine List.splitOn_intercalate ',' ?_ ?_
  · exact ((List.forall₂_and_left _ _).1 (h.imp fun _ _ htok => ⟨denotes_comma_not_mem htok, htok⟩)).1
  · rintro rfl
    exact hne (List.forall₂_nil_left_iff.1 h)

/-- The loader accepts exactly the literals of the grammar. -/
theorem parse_eq_ok_iff_literalOf (text : List Char) (ws : List Word) : parse text = .ok ws ↔ LiteralOf text ws := by
  simp only [parse_eq_ok_iff, parseTokens_eq_some_iff, parseToken_eq_some_iff]
  constructor
  · intro h
    obtain ⟨blank, hb, htext⟩ := exists_eq_stripTrailing_append text
    refine ⟨_, blank, ?_, h, fun c hc => (isTrailing_iff c).1 (hb c hc), ?_⟩
    · rintro rfl
      exact splitCommas_ne_nil _ (List.forall₂_nil_right_iff.1 h)
    · rw [splitCommas_eq_splitOn, List.intercalate_splitOn, ← htext]
  · rintro ⟨toks, blank, hne, h, hb, rfl⟩
    rw [stripTrailing_append (not_isTrailing_of_mem_intercalate h) fun c hc => (isTrailing_iff c).2 (hb c hc),
      splitCommas_intercalate h hne]
    exact h

/-- The library's decimal numeral of a number is a digit string of that value. -/
theorem parseDigits_toDigits (n : Nat) : parseDigits (Nat.toDigits 10 n) = some n := by
  have hall : (Nat.toDigits 10 n).all isDecimal = true := by
    rw [List.all_eq_true]
    intro c hc
    simpa [Char.isDigit, isDecimal, UInt32.le_iff_toNat_le] using
      Nat.isDigit_of_mem_toDigits (by decide) (by decide) hc
  have hvalue : decimalValue (Nat.toDigits 10 n) = Nat.ofDigitChars 10 (Nat.toDigits 10 n) 0 := by
    simp [decimalValue, Nat.ofDigitChars, Nat.mul_comm]
  rw [parseDigits, if_pos ⟨Nat.toDigits_ne_nil, hall⟩, hvalue, Nat.ofDigitChars_ten_toDigits]

/-- The numeral of a word is a token of that word. -/
theorem denotes_renderWord (w : Word) : Denotes (renderWord w) w := by
  rw [denotes_iff, renderWord]
  split
  · exact .inr ⟨_, _, rfl, parseDigits_toDigits _, by omega⟩
  · exact .inl ⟨_, parseDigits_toDigits _, by omega⟩

theorem renderLiteral_eq_intercalate (ws : List Word) :
    renderLiteral ws = [','].intercalate (ws.map renderWord) := by
  induction ws with
  | nil => rfl
  | cons w ws ih =>
    cases ws with
    | nil => simp [renderLiteral]
    | cons w' ws => simp [renderLiteral, ih]

theorem literalOf_renderLiteral {ws : List Word} {blank : List Char} (hne : ws ≠ [])
    (hb : blank.all isTrailing = true) : LiteralOf (renderLiteral ws ++ blank) ws := by
  refine ⟨ws.map renderWord, blank, hne, ?_, fun c hc => (isTrailing_iff c).1 (List.all_eq_true.1 hb c hc), ?_⟩
  · rw [List.forall₂_map_left_iff, List.forall₂_same]
    exact fun w _ => denotes_renderWord w
  · rw [renderLiteral_eq_intercalate]

end Sys2Proof.Machine
end

section
/-! Reading UTF-8 (20_memory.md R54, log 32): the reader of the model accepts exactly the bytes that the library
writes. -/

namespace Sys2Proof.Machine

open Sys2Proof.Claims

/-- The last `n` bytes of a character of code point `v`: six bits each, highest first. -/
def utf8Tail : Nat → Nat → List Byte
  | 0, _ => []
  | n + 1, v => BitVec.ofNat 8 (128 + v / 64 ^ n % 64) :: utf8Tail n v

/-- The first byte of a character of code point `v`, and what it begins. -/
def utf8Lead (v : Nat) : Byte × Utf8Pending :=
  if v < 0x80 then (BitVec.ofNat 8 v, { more := 0, bits := v, least := 0 })
  else if v < 0x800 then (BitVec.ofNat 8 (0xC0 + v / 64), { more := 1, bits := v / 64, least := 0x80 })
  else if v < 0x10000 then (BitVec.ofNat 8 (0xE0 + v / 4096), { more := 2, bits := v / 4096, least := 0x800 })
  else (BitVec.ofNat 8 (0xF0 + v / 262144), { more := 3, bits := v / 262144, least := 0x10000 })

theorem char_toNat_lt (c : Char) : c.toNat < 0x110000 := by
  have h := c.valid
  simp only [UInt32.isValidChar, Nat.isValidChar] at h
  have : c.toNat = c.val.toNat := rfl
  omega

theorem utf8Lead_one {v : Nat} (h : v < 0x80) :
    utf8Lead v = (BitVec.ofNat 8 v, { more := 0, bits := v, least := 0 }) := if_pos h

theorem utf8Lead_two {v : Nat} (h : 0x80 ≤ v) (h' : v < 0x800) :
    utf8Lead v = (BitVec.ofNat 8 (0xC0 + v / 64), { more := 1, bits := v / 64, least := 0x80 }) := by
  rw [utf8Lead, if_neg (by omega), if_pos h']

theorem utf8Lead_three {v : Nat} (h : 0x800 ≤ v) (h' : v < 0x10000) :
    utf8Lead v = (BitVec.ofNat 8 (0xE0 + v / 4096), { more := 2, bits := v / 4096, least := 0x800 }) := by
  rw [utf8Lead, if_neg (by omega), if_neg (by omega), if_pos h']

theorem utf8Lead_four {v : Nat} (h : 0x10000 ≤ v) :
    utf8Lead v = (BitVec.ofNat 8 (0xF0 + v / 262144), { more := 3, bits := v / 262144, least := 0x10000 }) := by
  rw [utf8Lead, if_neg (by omega), if_neg (by omega), if_neg (by omega)]

/-- The library writes a character as its first byte and the bytes after it. -/
theorem utf8EncodeChar_eq (c : Char) : (String.utf8EncodeChar c).map UInt8.toBitVec =
    (utf8Lead c.toNat).1 :: utf8Tail (utf8Lead c.toNat).2.more c.toNat := by
  have hv := char_toNat_lt c
  have hc : c.val.toNat = c.toNat := rfl
  simp only [String.utf8EncodeChar, hc]
  generalize c.toNat = v at hv
  split
  · rw [utf8Lead_one (by omega)]
    simp [utf8Tail, UInt8.toBitVec_ofNat']
  · split
    · rw [utf8Lead_two (by omega) (by omega), Nat.mod_eq_of_lt (by omega : v / 64 < 32)]
      simp [utf8Tail, UInt8.toBitVec_ofNat', Nat.add_comm, BitVec.ofNat_add]
    · split
      · rw [utf8Lead_three (by omega) (by omega), Nat.mod_eq_of_lt (by omega : v / 4096 < 16)]
        simp [utf8Tail, UInt8.toBitVec_ofNat', Nat.add_comm, BitVec.ofNat_add]
      · rw [utf8Lead_four (by omega), Nat.mod_eq_of_lt (by omega : v / 262144 < 8)]
        simp [utf8Tail, UInt8.toBitVec_ofNat', Nat.add_comm, BitVec.ofNat_add]

theorem byte_toNat {n : Nat} (h : n < 256) : (BitVec.ofNat 8 n : Byte).toNat = n := by
  rw [BitVec.toNat_ofNat, Nat.mod_eq_of_lt h]

/-- The first byte of a code point begins what the code point is, in its shortest form. -/
theorem utf8Start_lead {v : Nat} (hv : v < 0x110000) : utf8Start (utf8Lead v).1 = some (utf8Lead v).2 ∧
    (utf8Lead v).2.least ≤ v ∧ v / 64 ^ (utf8Lead v).2.more = (utf8Lead v).2.bits := by
  rcases lt_or_ge v 0x80 with h1 | h1
  · rw [utf8Lead_one h1, utf8Start, byte_toNat (by omega), if_pos h1]
    simp
  rcases lt_or_ge v 0x800 with h2 | h2
  · rw [utf8Lead_two h1 h2, utf8Start, byte_toNat (by omega), if_neg (by omega), if_neg (by omega),
      if_pos (by omega)]
    simp [h1]
  rcases lt_or_ge v 0x10000 with h3 | h3
  · rw [utf8Lead_three h2 h3, utf8Start, byte_toNat (by omega), if_neg (by omega), if_neg (by omega),
      if_neg (by omega), if_pos (by omega)]
    simp [h2]
  · rw [utf8Lead_four h3, utf8Start, byte_toNat (by omega), if_neg (by omega), if_neg (by omega), if_neg (by omega),
      if_neg (by omega), if_pos (by omega)]
    simp [h3]

theorem byte_ofNat_add_sub {b : Byte} {base : Nat} (h : base ≤ b.toNat) :
    BitVec.ofNat 8 (base + (b.toNat - base)) = b := by
  rw [Nat.add_sub_cancel' h, BitVec.ofNat_toNat, BitVec.setWidth_eq]

/-- What a first byte begins, in its shortest form, is the first byte of one code point. -/
theorem eq_utf8Lead_of_start {b : Byte} {q : Utf8Pending} {v : Nat} (hq : utf8Start b = some q) (hl : q.least ≤ v)
    (hb : v / 64 ^ q.more = q.bits) : (b, q) = utf8Lead v := by
  unfold utf8Start at hq
  split at hq
  · cases hq
    have hv : v = b.toNat := by simpa using hb
    rw [utf8Lead_one (by omega), hv, BitVec.ofNat_toNat, BitVec.setWidth_eq]
  split at hq
  · cases hq
  split at hq
  · cases hq
    have hv : v / 64 = b.toNat - 0xC0 := by simpa using hb
    rw [utf8Lead_two hl (by omega), hv, byte_ofNat_add_sub (by omega)]
  split at hq
  · cases hq
    have hv : v / 4096 = b.toNat - 0xE0 := by simpa using hb
    rw [utf8Lead_three hl (by omega), hv, byte_ofNat_add_sub (by omega)]
  split at hq
  · cases hq
    have hv : v / 262144 = b.toNat - 0xF0 := by simpa using hb
    rw [utf8Lead_four hl, hv, byte_ofNat_add_sub (by omega)]
  · cases hq

/-- A first byte begins exactly what a code point's first byte begins. -/
theorem utf8Start_eq_some_iff {b : Byte} {q : Utf8Pending} {v : Nat} (hv : v < 0x110000) :
    (utf8Start b = some q ∧ q.least ≤ v ∧ v / 64 ^ q.more = q.bits) ↔ (b, q) = utf8Lead v := by
  constructor
  · rintro ⟨hq, hl, hb⟩
    exact eq_utf8Lead_of_start hq hl hb
  · intro h
    obtain ⟨rfl, rfl⟩ : b = (utf8Lead v).1 ∧ q = (utf8Lead v).2 := Prod.ext_iff.1 h
    exact utf8Start_lead hv

theorem Utf8Pending.char_eq_some_iff (p : Utf8Pending) (c : Char) :
    p.char = some c ↔ p.bits = c.toNat ∧ p.least ≤ c.toNat := by
  constructor
  · intro h
    obtain ⟨hb, hl⟩ := Utf8Pending.char_some p c h
    exact ⟨hb, hb ▸ hl⟩
  · rintro ⟨hb, hl⟩
    rw [Utf8Pending.char, hb, if_pos ⟨hl, c.valid⟩, Char.ofNat_toNat]

/-- What is read after a byte that made `q`: the rest of a character that is unfinished, or a finished character
and the text behind it. -/
def Utf8Continues (q : Utf8Pending) (bs : List Byte) (t : List Char) : Prop :=
  (q.more ≠ 0 ∧ utf8From (some q) bs = some t) ∨
    (q.more = 0 ∧ ∃ c t', q.char = some c ∧ utf8From none bs = some t' ∧ t = c :: t')

theorem utf8From_cons_eq_some_iff (pending : Option Utf8Pending) (b : Byte) (bs : List Byte) (t : List Char) :
    utf8From pending (b :: bs) = some t ↔ ∃ q, utf8Next pending b = some q ∧ Utf8Continues q bs t := by
  refine ⟨utf8From_cons_some pending b bs t, ?_⟩
  rintro ⟨q, hq, ⟨hm, h⟩ | ⟨hm, c, t', hc, h, rfl⟩⟩
  · rw [utf8From_more pending b bs q hq hm, h]
  · rw [utf8From_last pending b bs q c hq hm hc, h, Option.map_some]

/-- A byte inside a character adds six bits of the code point. -/
theorem Utf8Pending.next_eq_some_iff (p q : Utf8Pending) (b : Byte) :
    p.next b = some q ↔ ∃ x < 64, b = BitVec.ofNat 8 (128 + x) ∧
      q = { more := p.more - 1, bits := p.bits * 64 + x, least := p.least } := by
  constructor
  · intro h
    obtain ⟨h0, h1, rfl⟩ := Utf8Pending.next_some p q b h
    refine ⟨b.toNat - 128, by omega, BitVec.eq_of_toNat_eq ?_, rfl⟩
    simp only [BitVec.toNat_ofNat]
    omega
  · rintro ⟨x, hx, rfl, rfl⟩
    have hb : (BitVec.ofNat 8 (128 + x)).toNat = 128 + x := by
      simp only [BitVec.toNat_ofNat]
      omega
    rw [Utf8Pending.next, hb, if_pos (by omega)]
    simp

/-- Reading on inside a character: its last bytes are those of one code point that has the bits read so far. -/
theorem utf8Continues_iff (n bits least : Nat) (bs : List Byte) (t : List Char) :
    Utf8Continues { more := n, bits := bits, least := least } bs t ↔
      ∃ c t' bs', t = c :: t' ∧ bs = utf8Tail n c.toNat ++ bs' ∧ least ≤ c.toNat ∧ c.toNat / 64 ^ n = bits ∧
        utf8From none bs' = some t' := by
  induction n generalizing bits bs with
  | zero =>
    constructor
    · rintro (⟨h, -⟩ | ⟨-, c, t', hc, h, rfl⟩)
      · exact absurd rfl h
      · obtain ⟨hb, hl⟩ := (Utf8Pending.char_eq_some_iff _ c).1 hc
        exact ⟨c, t', bs, rfl, rfl, hl, by simpa using hb.symm, h⟩
    · rintro ⟨c, t', bs', rfl, rfl, hl, hb, h⟩
      exact .inr ⟨rfl, c, t', (Utf8Pending.char_eq_some_iff _ c).2 ⟨by simpa using hb.symm, hl⟩, h, rfl⟩
  | succ n ih =>
    have hdiv (v : Nat) : v / 64 ^ (n + 1) = v / 64 ^ n / 64 := by rw [pow_succ, Nat.div_div_eq_div_mul]
    constructor
    · rintro (⟨-, h⟩ | ⟨h, -⟩)
      · cases bs with
        | nil => cases h
        | cons b bs =>
          obtain ⟨q, hq, hc⟩ := (utf8From_cons_eq_some_iff _ b bs t).1 h
          obtain ⟨x, hx, rfl, rfl⟩ := (Utf8Pending.next_eq_some_iff _ q b).1 hq
          obtain ⟨c, t', bs', rfl, rfl, hl, hb, h⟩ := (ih _ bs).1 hc
          have hb : c.toNat / 64 ^ n = bits * 64 + x := hb
          refine ⟨c, t', bs', rfl, ?_, hl, by rw [hdiv, hb]; omega, h⟩
          rw [utf8Tail, List.cons_append, hb, Nat.mul_add_mod_of_lt hx]
      · cases h
    · rintro ⟨c, t', bs', rfl, rfl, hl, rfl, h⟩
      refine .inl ⟨Nat.succ_ne_zero n, (utf8From_cons_eq_some_iff _ _ _ _).2 ⟨_, (Utf8Pending.next_eq_some_iff _ _ _).2
        ⟨c.toNat / 64 ^ n % 64, Nat.mod_lt _ (by decide), rfl, rfl⟩, (ih _ _).2 ⟨c, t', bs', rfl, rfl, hl, ?_, h⟩⟩⟩
      simp only [hdiv]
      omega

/-- Reading a text from its start: it is empty, or one character and the text behind it. -/
theorem utf8From_none_eq_some_cons_iff (bs : List Byte) (c : Char) (t : List Char) :
    utf8From none bs = some (c :: t) ↔
      ∃ bs', bs = (String.utf8EncodeChar c).map UInt8.toBitVec ++ bs' ∧ utf8From none bs' = some t := by
  rw [utf8EncodeChar_eq]
  have hv := char_toNat_lt c
  cases bs with
  | nil => simp
  | cons b bs =>
    rw [utf8From_cons_eq_some_iff]
    constructor
    · rintro ⟨q, hq, hc⟩
      obtain ⟨_, _, bs', ht, rfl, hl, hb, h⟩ := (utf8Continues_iff q.more q.bits q.least bs _).1 hc
      obtain ⟨rfl, rfl⟩ := List.cons.inj ht
      have hlead := (utf8Start_eq_some_iff hv).1 ⟨hq, hl, hb⟩
      exact ⟨bs', by rw [← hlead, List.cons_append], h⟩
    · rintro ⟨bs', hbs, h⟩
      obtain ⟨rfl, rfl⟩ := List.cons.inj hbs
      obtain ⟨hq, hl, hb⟩ := (utf8Start_eq_some_iff hv).2 rfl
      exact ⟨_, hq, (utf8Continues_iff _ _ _ _ _).2 ⟨c, t, bs', rfl, rfl, hl, hb, h⟩⟩

theorem utf8From_none_eq_some_nil_iff (bs : List Byte) : utf8From none bs = some [] ↔ bs = [] := by
  cases bs with
  | nil => simp
  | cons b bs =>
    rw [utf8From_cons_eq_some_iff]
    refine iff_of_false ?_ (List.cons_ne_nil b bs)
    rintro ⟨q, -, h⟩
    obtain ⟨c, t', -, ht, -⟩ := (utf8Continues_iff q.more q.bits q.least bs []).1 h
    cases ht

/-- The reader accepts exactly what the library writes. -/
theorem utf8Decode_eq_some_iff (bytes : List Byte) (text : List Char) :
    utf8Decode bytes = some text ↔ bytes = utf8 text := by
  unfold utf8Decode
  induction text generalizing bytes with
  | nil => exact utf8From_none_eq_some_nil_iff bytes
  | cons c t ih =>
    simp only [utf8From_none_eq_some_cons_iff, ih, exists_eq_right, utf8, List.flatMap_cons]

theorem parseBytes_utf8 (text : List Char) : parseBytes (utf8 text) = parse text := by
  rw [parseBytes, (utf8Decode_eq_some_iff _ text).2 rfl]

theorem parseBytes_not_utf8 {bytes : List Byte} (h : ∀ text, bytes ≠ utf8 text) :
    parseBytes bytes = .error .malformedLiteral := by
  have hnone : utf8Decode bytes = none :=
    Option.eq_none_iff_forall_ne_some.2 fun text ht => h text ((utf8Decode_eq_some_iff bytes text).1 ht)
  rw [parseBytes, hnone]

/-- The `parse` transaction leaves the core as it is, and answers what the bytes parse to. -/
theorem transact_parse_error {bytes : List Byte} (h : parseBytes bytes = .error .malformedLiteral) (p : Platform) :
    transact (.parse bytes) p = .ok (p, .error .malformedLiteral) := by
  simp only [transact, hostParse, h]

theorem transact_parse_ok {bytes : List Byte} {ws : List Word} (h : parseBytes bytes = .ok ws) (p : Platform) :
    transact (.parse bytes) p =
      if ws.length ≤ Config.lenMax then .ok (p, .made (Image.fromWords ws)) else .error .imageTooLong := by
  by_cases hlen : ws.length ≤ Config.lenMax
  · simp only [transact, hostParse, h, loadWords, if_pos hlen]
  · simp only [transact, hostParse, h, loadWords, if_neg hlen]

end Sys2Proof.Machine
end

section
/-! The statements about memory and its loading (20_memory.md), settled. -/

namespace Sys2Proof.Proofs

open Sys2Proof Sys2Proof.Machine Sys2Proof.Claims

/-- Settles O50: the image the loader makes meets the invariant, and every step keeps it and the length. -/
theorem everyRunKeepsTheInvariant : Obligations.EveryRunKeepsTheInvariant := by
  intro bytes img input fuel h
  refine runLoop_induction (P := fun t => t.Inv ∧ t.len = img.len) (fun s t hs hst => ?_) fuel
    ⟨hostParse_inv h, rfl⟩
  exact ⟨stepKeepsTheInvariant s t hs.1 hst, (lengthIsFixed.1 s t hst).trans hs.2⟩

/-- Settles O52: what the encoder writes is a literal of the grammar. -/
theorem literalRoundTrip : Obligations.LiteralRoundTrip :=
  fun ws _ hne hb => (parse_eq_ok_iff_literalOf _ ws).2 (literalOf_renderLiteral hne hb)

/-- Settles O58: the loader accepts the literals of the grammar, and refuses a text that parses to no words. -/
theorem literalGrammar : Obligations.LiteralGrammar := by
  intro text
  have hok := parse_eq_ok_iff_literalOf text
  refine ⟨hok, ?_⟩
  simp only [parse_eq_error_iff_forall, ne_eq, hok]

/-- Settles O11, by the read after a store in a canonical memory. -/
theorem writeChangesOneWord : Obligations.WriteChangesOneWord := by
  intro img a v hm
  refine ⟨fun h => Image.write_outOfBounds img a v (Image.not_inBounds h), fun h0 h1 => ?_⟩
  have hw := Image.write_inBounds img a v ⟨h0, h1⟩
  have hword := Image.word_write hm hw
  exact ⟨_, hw, rfl, by rw [hword, if_pos rfl], fun k hk => by rw [hword, if_neg hk]⟩

/-- Settles O13, by the first listed addresses and induction. -/
theorem canonicalMemoryIsUnique : Obligations.CanonicalMemoryIsUnique :=
  fun _ _ h h' heq => Memory.eq_of_lookup_eq h h' heq

/-- Settles O51: the loader goes through the tokens in order, and the image through the words. -/
theorem parseIsTokenByToken : Obligations.ParseIsTokenByToken := by
  intro text
  refine ⟨fun ws h => ⟨?_, rfl, Image.fromWords_word ws⟩, ?_⟩
  · rw [parse_eq_ok_iff, parseTokens_eq_some_iff] at h
    rwa [← List.forall₂_eq_eq_eq, List.forall₂_map_left_iff, List.forall₂_map_right_iff]
  · rw [parse_eq_error_iff, parseTokens_eq_none_iff]

/-- Settles O53: with no run in progress the transaction is the host's checked write. -/
theorem hostWriteIsAPatch : Obligations.HostWriteIsAPatch := by
  intro p a v hp hm
  have htr : transact (.write a v) p = .ok (hostWrite a v p) := by simp [transact, hp]
  obtain ⟨img, hw, he⟩ | ⟨he, hout⟩ := hostWrite_cases a v p
  · refine ⟨fun _ => ⟨p.withImage img, by rw [htr, he], ?_, fun k hk => ?_, ?_⟩,
      fun h => absurd (Image.write_ok _ _ a v hw).1 h⟩
    · rw [Platform.image_withImage, Image.word_write hm hw, if_pos rfl]
    · rw [Platform.image_withImage, Image.word_write hm hw, if_neg hk]
    · rintro s rfl
      exact ⟨s.withImage img, rfl, rfl, rfl, rfl⟩
  · exact ⟨fun h => absurd h hout, fun _ => by rw [htr, he]⟩

/-- Settles O55: a transaction writes at most one word of the core's image, and an image made is loaded or copied. -/
theorem transactionsKeepTheInvariant : Obligations.TransactionsKeepTheInvariant := by
  intro tr p p' r hinv h
  constructor
  · obtain hsame | ⟨a, v, hw⟩ := transact_image h
    · exact hsame ▸ hinv
    · exact Image.write_inv _ _ a v hinv hw
  · rintro img rfl
    obtain ⟨bytes, hb⟩ | rfl := transact_made h
    · exact hostParse_inv hb
    · exact hinv

/-- Settles O59: the reader accepts exactly the library's UTF-8, and gives its text to the loader. -/
theorem hostParseReadsUtf8 : Obligations.HostParseReadsUtf8 := by
  refine fun bytes p => ⟨?_, fun h => transact_parse_error (parseBytes_not_utf8 h) p⟩
  rintro text rfl
  exact ⟨fun ws h => transact_parse_ok ((parseBytes_utf8 text).trans h) p,
    fun h => transact_parse_error ((parseBytes_utf8 text).trans h) p⟩

/-- Settles O10, by the two cases of the bounds check. -/
theorem readIsBoundsChecked : Obligations.ReadIsBoundsChecked :=
  fun img a => ⟨fun h => Image.read_outOfBounds img a (Image.not_inBounds h),
    fun h0 h1 => Image.read_inBounds img a ⟨h0, h1⟩⟩

/-- Settles O12, by the cases of the range check. -/
theorem sliceIsContiguousOrFails : Obligations.SliceIsContiguousOrFails := by
  intro img a n
  refine ⟨fun hn h => Image.slice_outOfBounds img a n (by omega) (by omega), fun _ h0 h1 => ?_,
    Image.slice_zero img a⟩
  exact ⟨_, Image.slice_inBounds img a n h0 h1, by simp, fun k hk => by simp [hk]⟩

end Sys2Proof.Proofs
end

section
/-! The laws behind the statements about the encoding (30_encoding.md): decimal digits, the decoder of the
instruction word, and an instruction as its opcode, its modes and its parameter words. -/

namespace Sys2Proof

open Sys2Proof.Claims

/-! Decimal digits (R6). -/

theorem digit_div_pow (k j v : Nat) : digit k (v / 10 ^ j) = digit (j + k) v := by
  rw [digit, digit, Nat.div_div_eq_div_mul, pow_add]

/-- The digits of a number cut off at `n` digits. -/
theorem digit_mod_pow (k n v : Nat) : digit k (v % 10 ^ n) = if k < n then digit k v else 0 := by
  unfold digit
  split
  · obtain ⟨d, rfl⟩ : ∃ d, n = k + (d + 1) := ⟨n - k - 1, by omega⟩
    rw [pow_add, Nat.mod_mul_right_div_self, Nat.mod_mod_of_dvd _ (dvd_pow_self 10 d.succ_ne_zero)]
  · have hlt : v % 10 ^ n < 10 ^ k :=
      (Nat.mod_lt v (by positivity)).trans_le (Nat.pow_le_pow_right (by decide) (by omega))
    rw [Nat.div_eq_of_lt hlt, Nat.zero_mod]

/-- Putting a digit 1 in the place of a digit 0 changes no other digit. -/
theorem digit_add_pow (k j v : Nat) (hj : digit j v = 0) :
    digit k (v + 10 ^ j) = if k = j then 1 else digit k v := by
  have hpos : 0 < 10 ^ j := by positivity
  unfold digit at *
  rcases lt_trichotomy k j with hk | rfl | hk
  · obtain ⟨d, rfl⟩ : ∃ d, j = k + (d + 1) := ⟨j - k - 1, by omega⟩
    rw [if_neg (by omega), pow_add, Nat.add_mul_div_left _ _ (by positivity), pow_succ]
    omega
  · rw [if_pos rfl, Nat.add_div_right _ hpos]
    omega
  · obtain ⟨d, rfl⟩ : ∃ d, k = j + 1 + d := ⟨k - (j + 1), by omega⟩
    have hdrop : (v + 10 ^ j) / 10 ^ (j + 1) = v / 10 ^ (j + 1) := by
      rw [pow_succ, ← Nat.div_div_eq_div_mul, ← Nat.div_div_eq_div_mul, Nat.add_div_right _ hpos]
      omega
    rw [if_neg (by omega), pow_add, ← Nat.div_div_eq_div_mul, ← Nat.div_div_eq_div_mul, hdrop]

/-! The decoder of the instruction word (R72). -/

/-- The supported numbers are those of the opcodes (R65). -/
theorem mem_supported_iff (n : Nat) : n ∈ supported ↔ ∃ op, n = opcodeNumber op := by
  constructor
  · have hall : ∀ m ∈ supported, (opcodeOfNumber m).isSome := by decide
    intro h
    obtain ⟨op, hop⟩ := Option.isSome_iff_exists.1 (hall n h)
    exact ⟨op, opcodeOfNumber_some n op hop⟩
  · rintro ⟨op, rfl⟩
    cases op <;> decide

theorem modeDigitsValid_iff_digitsValid (w : Word) (h : 0 ≤ w.toInt) :
    modeDigitsValid (w.toNat / 100) = true ↔ DigitsValid w :=
  modeDigitsValid_iff _ (modeField_lt w h)

theorem decodeWord_unsupported (w : Word) (h : 0 ≤ w.toInt) (hop : w.toNat % 100 ∉ supported) :
    decodeWord w = .error .unknownOpcode := by
  have hnone : opcodeOfNumber (w.toNat % 100) = none :=
    Option.eq_none_iff_forall_ne_some.2 fun op hs => hop ((mem_supported_iff _).2 ⟨op, opcodeOfNumber_some _ op hs⟩)
  rw [decodeWord_nonneg w h, hnone]

theorem decodeWord_supported (w : Word) (op : Opcode) (h : 0 ≤ w.toInt) (hop : w.toNat % 100 = opcodeNumber op) :
    decodeWord w = if modeDigitsValid (w.toNat / 100) then .ok ⟨op, modesOf op (w.toNat / 100)⟩
      else .error .unknownParameterMode := by
  rw [decodeWord_nonneg w h, hop, opcodeOfNumber_opcodeNumber]

theorem decodeWord_digitsValid (w : Word) (op : Opcode) (h : 0 ≤ w.toInt) (hop : w.toNat % 100 = opcodeNumber op)
    (hd : DigitsValid w) : decodeWord w = .ok ⟨op, modesOf op (w.toNat / 100)⟩ := by
  rw [decodeWord_supported w op h hop, if_pos ((modeDigitsValid_iff_digitsValid w h).2 hd)]

theorem decodeWord_digitsInvalid (w : Word) (op : Opcode) (h : 0 ≤ w.toInt) (hop : w.toNat % 100 = opcodeNumber op)
    (hd : ¬ DigitsValid w) : decodeWord w = .error .unknownParameterMode := by
  rw [decodeWord_supported w op h hop, if_neg (mt (modeDigitsValid_iff_digitsValid w h).1 hd)]

/-- Mode i of a decoded word is that of digit i of the mode field (R62). -/
theorem modesOf_getElem? (op : Opcode) (m i : Nat) (hi : i < paramCount op) :
    (modesOf op m)[i]? = some (modeOfDigit (digit i m)) := by
  simp [modesOf, hi]

/-- The modes read only the digits of the opcode's parameters (D7). -/
theorem modesOf_mod_pow (op : Opcode) (m : Nat) : modesOf op (m % 10 ^ paramCount op) = modesOf op m := by
  refine List.map_congr_left fun i hi => ?_
  rw [digit_mod_pow, if_pos (List.mem_range.1 hi)]

theorem digitsValid_mod_pow (w w' : Word) (n : Nat) (hw : w'.toNat / 100 = w.toNat / 100 % 10 ^ n)
    (hd : DigitsValid w) : DigitsValid w' := by
  intro k
  rw [hw, digit_mod_pow]
  split
  · exact hd k
  · exact Nat.zero_le 1

theorem ofNat_of_lt (n : Nat) (h : n < 2 ^ 63) :
    (BitVec.ofNat 64 n : Word).toNat = n ∧ 0 ≤ (BitVec.ofNat 64 n : Word).toInt := by
  have hn : (BitVec.ofNat 64 n : Word).toNat = n := by rw [BitVec.toNat_ofNat, Nat.mod_eq_of_lt (by omega)]
  have hc := BitVec.toInt_eq_toNat_cond (BitVec.ofNat 64 n)
  rw [hn] at hc
  exact ⟨hn, by split at hc <;> omega⟩

/-- A decoded word cut off behind the digits of its parameters decodes to the same (D7). -/
theorem decodeWord_mod_pow (w : Word) (h : Header) (hw : decodeWord w = .ok h) :
    decodeWord (BitVec.ofNat 64 (w.toNat % 10 ^ (paramCount h.op + 2))) = .ok h := by
  obtain ⟨h0, hop, hv, hm⟩ := decodeWord_ok w h hw
  have hd := (modeDigitsValid_iff_digitsValid w h0).1 hv
  have hlt : w.toNat % 10 ^ (paramCount h.op + 2) < 2 ^ 63 := (Nat.mod_le _ _).trans_lt (toInt_nonneg w h0).1
  obtain ⟨hn, h0'⟩ := ofNat_of_lt _ hlt
  generalize BitVec.ofNat 64 (w.toNat % 10 ^ (paramCount h.op + 2)) = w' at hn h0' ⊢
  rw [show 10 ^ (paramCount h.op + 2) = 100 * 10 ^ paramCount h.op by ring] at hn
  have hop' : w'.toNat % 100 = opcodeNumber h.op := by rw [hn, Nat.mod_mul_right_mod, hop]
  have hfield : w'.toNat / 100 = w.toNat / 100 % 10 ^ paramCount h.op := by rw [hn, Nat.mod_mul_right_div_self]
  rw [decodeWord_digitsValid w' h.op h0' hop' (digitsValid_mod_pow w w' _ hfield hd), hfield, modesOf_mod_pow, ← hm]

/-! An instruction as its opcode, the modes of its parameters and its parameter words (Table E1). -/

/-- The modes of an instruction's parameters, that of a write parameter written as position (R71). -/
def instrModes : Instr → List Mode
  | .add a b _ | .mul a b _ | .lt a b _ | .eq a b _ => [operandMode a, operandMode b, .position]
  | .inp _ => [.position]
  | .out a => [operandMode a]
  | .jnz a b | .jz a b => [operandMode a, operandMode b]
  | .halt => []

/-- The raw parameter words of an instruction. -/
def instrParams : Instr → List Word
  | .add a b dst | .mul a b dst | .lt a b dst | .eq a b dst => [operandRaw a, operandRaw b, dst]
  | .inp dst => [dst]
  | .out a => [operandRaw a]
  | .jnz a b | .jz a b => [operandRaw a, operandRaw b]
  | .halt => []

/-- The modes that R71 allows for parameters of these roles: both for a value, position for a write. -/
def canonicalModeLists : List Role → List (List Mode)
  | [] => [[]]
  | .value :: rs => (canonicalModeLists rs).flatMap fun ms => [.position :: ms, .immediate :: ms]
  | .write :: rs => (canonicalModeLists rs).map (Mode.position :: ·)

theorem mem_canonicalModeLists_value (rs : List Role) (ms : List Mode) :
    ms ∈ canonicalModeLists (.value :: rs) ↔ ∃ m, ∃ ms' ∈ canonicalModeLists rs, ms = m :: ms' := by
  have hmode (p : Mode → Prop) : (∃ m, p m) ↔ p .position ∨ p .immediate :=
    ⟨fun ⟨m, hm⟩ => by cases m <;> simp [hm], fun h => h.elim (⟨_, ·⟩) (⟨_, ·⟩)⟩
  simp only [canonicalModeLists, List.mem_flatMap, List.mem_cons, List.not_mem_nil, or_false, hmode, ← exists_or,
    ← and_or_left]

theorem mem_canonicalModeLists_write (rs : List Role) (ms : List Mode) :
    ms ∈ canonicalModeLists (.write :: rs) ↔ ∃ ms' ∈ canonicalModeLists rs, ms = .position :: ms' := by
  simp [canonicalModeLists, eq_comm]

theorem mem_canonicalModeLists_nil (ms : List Mode) : ms ∈ canonicalModeLists [] ↔ ms = [] :=
  List.mem_singleton

theorem mem_canonicalModeLists_A (ms : List Mode) :
    ms ∈ canonicalModeLists [.value, .value, .write] ↔ ∃ a b, ms = [a, b, .position] := by
  simp [mem_canonicalModeLists_value, mem_canonicalModeLists_write, mem_canonicalModeLists_nil]

theorem mem_canonicalModeLists_J (ms : List Mode) :
    ms ∈ canonicalModeLists [.value, .value] ↔ ∃ a b, ms = [a, b] := by
  simp [mem_canonicalModeLists_value, mem_canonicalModeLists_nil]

theorem mem_canonicalModeLists_R (ms : List Mode) :
    ms ∈ canonicalModeLists [.value] ↔ ∃ a, ms = [a] := by
  simp [mem_canonicalModeLists_value, mem_canonicalModeLists_nil]

theorem mem_canonicalModeLists_W (ms : List Mode) : ms ∈ canonicalModeLists [.write] ↔ ms = [.position] := by
  simp [mem_canonicalModeLists_write, mem_canonicalModeLists_nil]

theorem encode_eq (i : Instr) : encode i = headWord (opcodeOf i) (instrModes i) :: instrParams i := by
  cases i <;> rfl

theorem instrParams_length (i : Instr) : (instrParams i).length = paramCount (opcodeOf i) := by
  cases i <;> rfl

@[simp] theorem operandMode_operandOf (m : Mode) (w : Word) : operandMode (operandOf m w) = m := by
  cases m <;> rfl

@[simp] theorem operandRaw_operandOf (m : Mode) (w : Word) : operandRaw (operandOf m w) = w := by
  cases m <;> rfl

theorem opcodeOf_assemble (h : Header) (ps : List Word) : opcodeOf (assemble h ps) = h.op := by
  obtain ⟨op, ms⟩ := h
  cases op <;> rfl

theorem assemble_instr (i : Instr) : assemble ⟨opcodeOf i, instrModes i⟩ (instrParams i) = i := by
  cases i <;> simp [opcodeOf, instrModes, instrParams, assemble, valueParam, writeParam, operandOf_mode_raw]

/-- The encoder writes modes that R71 allows. -/
theorem instrModes_mem (i : Instr) : instrModes i ∈ canonicalModeLists (paramRoles (opcodeOf i)) := by
  cases i with
  | add a b | mul a b | lt a b | eq a b => exact (mem_canonicalModeLists_A _).2 ⟨_, _, rfl⟩
  | jnz a b | jz a b => exact (mem_canonicalModeLists_J _).2 ⟨_, _, rfl⟩
  | out a => exact (mem_canonicalModeLists_R _).2 ⟨_, rfl⟩
  | inp => exact (mem_canonicalModeLists_W _).2 rfl
  | halt => exact (mem_canonicalModeLists_nil _).2 rfl

/-- An instruction assembled under canonical modes has those modes. -/
theorem instrModes_assemble (op : Opcode) (ms : List Mode) (hms : ms ∈ canonicalModeLists (paramRoles op))
    (ps : List Word) : instrModes (assemble ⟨op, ms⟩ ps) = ms := by
  cases op with
  | add | mul | lt | eq =>
    obtain ⟨a, b, rfl⟩ := (mem_canonicalModeLists_A ms).1 hms
    simp [assemble, instrModes, valueParam]
  | jnz | jz =>
    obtain ⟨a, b, rfl⟩ := (mem_canonicalModeLists_J ms).1 hms
    simp [assemble, instrModes, valueParam]
  | out =>
    obtain ⟨a, rfl⟩ := (mem_canonicalModeLists_R ms).1 hms
    simp [assemble, instrModes, valueParam]
  | inp => exact ((mem_canonicalModeLists_W ms).1 hms).symm
  | halt => exact ((mem_canonicalModeLists_nil ms).1 hms).symm

theorem instrParams_assemble (h : Header) (ps : List Word) (hps : ps.length = paramCount h.op) :
    instrParams (assemble h ps) = ps := by
  obtain ⟨op, ms⟩ := h
  cases op with
  | add | mul | lt | eq =>
    obtain ⟨x, y, z, rfl⟩ := List.length_eq_three.1 hps
    simp [assemble, instrParams, valueParam, writeParam]
  | jnz | jz =>
    obtain ⟨x, y, rfl⟩ := List.length_eq_two.1 hps
    simp [assemble, instrParams, valueParam]
  | inp | out =>
    obtain ⟨x, rfl⟩ := List.length_eq_one_iff.1 hps
    simp [assemble, instrParams, valueParam, writeParam]
  | halt => exact (List.length_eq_zero_iff.1 hps).symm

/-- Encoding what was assembled under canonical modes gives its words back. -/
theorem encode_assemble (op : Opcode) (ms : List Mode) (hms : ms ∈ canonicalModeLists (paramRoles op))
    (ps : List Word) (hps : ps.length = paramCount op) :
    encode (assemble ⟨op, ms⟩ ps) = headWord op ms :: ps := by
  rw [encode_eq, opcodeOf_assemble, instrModes_assemble op ms hms, instrParams_assemble _ ps hps]

/-! The canonical instruction words (R71). -/

theorem decodeWord_headWord (op : Opcode) (ms : List Mode) (hms : ms ∈ canonicalModeLists (paramRoles op)) :
    decodeWord (headWord op ms) = .ok ⟨op, ms⟩ := by
  revert ms
  cases op <;> decide

/-- A canonical mode field is written from canonical modes. -/
theorem exists_modeField_of_canonicalModes (rs : List Role) (m : Nat) (h : canonicalModes rs m = true) :
    ∃ ms ∈ canonicalModeLists rs, m = modeField ms := by
  induction rs generalizing m with
  | nil => exact ⟨[], List.mem_singleton_self _, of_decide_eq_true h⟩
  | cons r rs ih =>
    obtain ⟨hd, hrest⟩ := Bool.and_eq_true_iff.1 h
    obtain ⟨ms, hms, hm⟩ := ih _ hrest
    cases r with
    | value =>
      have hd : m % 10 ≤ 1 := of_decide_eq_true hd
      obtain h0 | h1 : m % 10 = 0 ∨ m % 10 = 1 := by omega
      · exact ⟨.position :: ms, (mem_canonicalModeLists_value _ _).2 ⟨_, ms, hms, rfl⟩, by
          simp only [modeField, modeDigit]; omega⟩
      · exact ⟨.immediate :: ms, (mem_canonicalModeLists_value _ _).2 ⟨_, ms, hms, rfl⟩, by
          simp only [modeField, modeDigit]; omega⟩
    | write =>
      have hd : m % 10 = 0 := of_decide_eq_true hd
      exact ⟨.position :: ms, (mem_canonicalModeLists_write _ _).2 ⟨ms, hms, rfl⟩, by
        simp only [modeField, modeDigit]; omega⟩

theorem eq_headWord (w : Word) (op : Opcode) (ms : List Mode) (hop : w.toNat % 100 = opcodeNumber op)
    (hm : w.toNat / 100 = modeField ms) : w = headWord op ms := by
  rw [headWord, ← hop, ← hm, Nat.mod_add_div, BitVec.ofNat_toNat, BitVec.setWidth_eq]

/-- A canonical instruction word is one that the encoder writes for canonical modes. -/
theorem exists_headWord_of_canonicalWord (w : Word) (h : canonicalWord w = true) :
    ∃ op, ∃ ms ∈ canonicalModeLists (paramRoles op), w = headWord op ms := by
  obtain ⟨-, hmodes⟩ := Bool.and_eq_true_iff.1 h
  split at hmodes
  · cases hmodes
  · rename_i op hop
    obtain ⟨ms, hms, hm⟩ := exists_modeField_of_canonicalModes _ _ hmodes
    exact ⟨op, ms, hms, eq_headWord w op ms (opcodeOfNumber_some _ op hop) hm⟩

theorem headWord_toNat_mod (op : Opcode) (ms : List Mode) (hms : ms ∈ canonicalModeLists (paramRoles op)) :
    (headWord op ms).toNat % 100 = opcodeNumber op :=
  (decodeWord_ok _ _ (decodeWord_headWord op ms hms)).2.1

/-- A canonical encoding is an instruction word of canonical modes and as many words as its opcode has
parameters. -/
theorem canonicalEncoding_cases (ws : List Word) (h : canonicalEncoding ws = true) :
    ∃ op, ∃ ms ∈ canonicalModeLists (paramRoles op), ∃ ps,
      ws = headWord op ms :: ps ∧ ps.length = paramCount op := by
  cases ws with
  | nil => cases h
  | cons w ps =>
    obtain ⟨hw, hlen⟩ := Bool.and_eq_true_iff.1 h
    obtain ⟨op, ms, hms, rfl⟩ := exists_headWord_of_canonicalWord w hw
    rw [headWord_toNat_mod op ms hms, opcodeOfNumber_opcodeNumber] at hlen
    exact ⟨op, ms, hms, ps, rfl, of_decide_eq_true hlen⟩

/-- The words that R71 lists. -/
def listedWords : List Int :=
  [1, 101, 1001, 1101, 2, 102, 1002, 1102, 3, 4, 104, 5, 105, 1005, 1105, 6, 106, 1006, 1106,
    7, 107, 1007, 1107, 8, 108, 1008, 1108, 99]

theorem headWord_listed (op : Opcode) (ms : List Mode) (hms : ms ∈ canonicalModeLists (paramRoles op)) :
    (headWord op ms).toInt ∈ listedWords := by
  revert ms
  cases op <;> decide

theorem canonicalWord_of_listed (w : Word) (h : w.toInt ∈ listedWords) : canonicalWord w = true := by
  have hall : ∀ v ∈ listedWords, canonicalWord (Machine.wrapW v) = true := by decide
  exact Machine.wrapW_toInt_self w ▸ hall _ h

/-! The decoder on words in memory order (R60, R72). -/

theorem decode_cons_append (w : Word) (ps rest : List Word) (h : Header) (hw : decodeWord w = .ok h)
    (hps : ps.length = paramCount h.op) : decode (w :: (ps ++ rest)) = .ok (assemble h ps, rest) := by
  rw [decode_cons_ok w _ h hw (by simp [hps]), ← hps, List.take_left, List.drop_left]

/-- What an instruction word of canonical modes and its parameter words decode to. -/
theorem decode_headWord (op : Opcode) (ms : List Mode) (hms : ms ∈ canonicalModeLists (paramRoles op))
    (ps rest : List Word) (hps : ps.length = paramCount op) :
    decode (headWord op ms :: (ps ++ rest)) = .ok (assemble ⟨op, ms⟩ ps, rest) :=
  decode_cons_append _ ps rest _ (decodeWord_headWord op ms hms) hps

theorem decode_cons_error (w : Word) (ps : List Word) (e : DecodeError) (hw : decodeWord w = .error e) :
    decode (w :: ps) = .error e := by
  simp only [decode, hw]

/-- Instruction words of one opcode decode alike where their modes assemble to the same instruction. -/
theorem decode_cons_congr (w w' : Word) (h h' : Header) (ps : List Word) (hw : decodeWord w = .ok h)
    (hw' : decodeWord w' = .ok h') (hop : h'.op = h.op) (ha : ∀ p, assemble h' p = assemble h p) :
    decode (w' :: ps) = decode (w :: ps) := by
  simp only [decode, hw, hw', hop, ha]

/-- An instruction depends on the modes of its value parameters only (R70). -/
theorem assemble_congr (op : Opcode) (ms ms' : List Mode)
    (h : ∀ i : Nat, (paramRoles op)[i]? = some Role.value → ms'[i]? = ms[i]?) (p : List Word) :
    assemble ⟨op, ms'⟩ p = assemble ⟨op, ms⟩ p := by
  have hv (i : Nat) (hi : (paramRoles op)[i]? = some .value) :
      valueParam ⟨op, ms'⟩ p i = valueParam ⟨op, ms⟩ p i := by
    simp only [valueParam, List.getD_eq_getElem?_getD, h i hi]
  cases op with
  | add | mul | lt | eq | jnz | jz => simp only [assemble, hv 0 rfl, hv 1 rfl]
  | out => simp only [assemble, hv 0 rfl]
  | inp | halt => rfl

/-- Setting the digit 0 of a write parameter to 1 decodes to the same instruction (R70). -/
theorem decode_add_write_digit (w : Word) (op : Opcode) (j : Nat) (ps : List Word) (h0 : 0 ≤ w.toInt)
    (hop : w.toNat % 100 = opcodeNumber op) (hj : (paramRoles op)[j]? = some .write)
    (hd : digit (2 + j) w.toNat = 0) (hlt : w.toNat + 100 * 10 ^ j < 2 ^ 63) :
    decode (BitVec.ofNat 64 (w.toNat + 100 * 10 ^ j) :: ps) = decode (w :: ps) := by
  obtain ⟨hn, h0'⟩ := ofNat_of_lt _ hlt
  generalize BitVec.ofNat 64 (w.toNat + 100 * 10 ^ j) = w' at hn h0' ⊢
  have hop' : w'.toNat % 100 = opcodeNumber op := by rw [hn, Nat.add_mul_mod_self_left, hop]
  have hdj : digit j (w.toNat / 100) = 0 := (digit_div_pow j 2 _).trans hd
  have hdigit (k : Nat) : digit k (w'.toNat / 100) = if k = j then 1 else digit k (w.toNat / 100) := by
    rw [hn, Nat.add_mul_div_left _ _ (by decide), digit_add_pow k j _ hdj]
  have hvalid : DigitsValid w' ↔ DigitsValid w := forall_congr' fun k => by
    rw [hdigit]
    split
    · subst k
      simp [hdj]
    · rfl
  by_cases hv : DigitsValid w
  · refine decode_cons_congr w w' _ _ ps (decodeWord_digitsValid w op h0 hop hv)
      (decodeWord_digitsValid w' op h0' hop' (hvalid.2 hv)) rfl (assemble_congr op _ _ fun i hi => ?_)
    have hij : i ≠ j := by
      rintro rfl
      cases hi.symm.trans hj
    have hcount : i < paramCount op := (List.getElem?_eq_some_iff.1 hi).1
    rw [modesOf_getElem? op _ i hcount, modesOf_getElem? op _ i hcount, hdigit, if_neg hij]
  · rw [decode_cons_error w ps _ (decodeWord_digitsInvalid w op h0 hop hv),
      decode_cons_error w' ps _ (decodeWord_digitsInvalid w' op h0' hop' (mt hvalid.1 hv))]

/-- The write parameter of an assembled instruction is its last parameter word (R70). -/
theorem destinationOf_assemble (h : Header) (ps : List Word) (dst : Word) (hps : ps.length = paramCount h.op)
    (hd : Machine.destinationOf (assemble h ps) = some dst) : ps[paramCount h.op - 1]? = some dst := by
  obtain ⟨op, ms⟩ := h
  cases op with
  | add | mul | lt | eq =>
    obtain ⟨x, y, z, rfl⟩ := List.length_eq_three.1 hps
    exact hd
  | inp =>
    obtain ⟨x, rfl⟩ := List.length_eq_one_iff.1 hps
    exact hd
  | out | jnz | jz | halt => cases hd

end Sys2Proof
end

section
/-! Fetching what was decoded, and placing it in memory (40_execution_cycle.md R81 to R83; log 4, 29). -/

namespace Sys2Proof.Machine

open Sys2Proof.Claims

/-- A running step at an instruction word that does not decode enters its error (R156). -/
theorem step_decodeWord_error (s : State) (e : DecodeError) (hs : s.status = .running)
    (hb : s.InBounds s.ip.toInt) (he : decodeWord (instrWord s) = .error e) :
    step s = .next (failed (runErrorOf e) s) := by
  have hf : fetch s = .error (runErrorOf e) := by
    rw [fetch_inBounds s hb, show s.word s.ip.toInt.toNat = instrWord s from rfl, he]
  rw [step_unfetched s _ hs hf]
  rfl

/-- Words that decode, where they stand in memory at `ip`, are fetched as the instruction they decode to. -/
theorem fetch_of_decode (s : State) (ws rest : List Word) (i : Instr) (hd : decode ws = .ok (i, rest))
    (h0 : 0 ≤ s.ip.toInt) (hlen : s.ip.toInt + ws.length ≤ (s.len : Int))
    (hws : ∀ k (hk : k < ws.length), s.word (s.ip.toInt.toNat + k) = ws[k]) : fetch s = .ok i := by
  obtain ⟨w, ps, h, rfl, hps, hw, rfl⟩ := decode_ok ws rest i hd
  simp only [List.length_cons, List.length_append] at hlen hws
  have hb : s.InBounds s.ip.toInt := ⟨h0, by omega⟩
  have hhead : s.word s.ip.toInt.toNat = w := hws 0 (by omega)
  have hparams : (List.range ps.length).map (fun k => s.word (s.ip.toInt.toNat + 1 + k)) = ps := by
    refine List.ext_getElem (by simp) fun k hk hk' => ?_
    have := hws (k + 1) (by omega)
    simpa [hk', Nat.add_assoc, Nat.add_comm 1 k] using this
  rw [fetch_inBounds s hb, hhead, hw]
  simp only [fetchParams_inBounds s h hb (by omega), ← hps, hparams]

theorem lookup_storeAll_of_lt (m : Memory) (hm : m.wf) (a : Nat) (ws : List Word) (b : Nat) (hb : b < a) :
    (storeAll m a ws).lookup b = m.lookup b := by
  induction ws generalizing m a with
  | nil => rfl
  | cons w ws ih =>
    rw [storeAll, ih _ (Memory.store_wf m hm a w) _ (by omega), Memory.lookup_store m hm, if_neg (by omega)]

/-- Words stored one after another are read back. -/
theorem lookup_storeAll (m : Memory) (hm : m.wf) (a : Nat) (ws : List Word) (k : Nat) (hk : k < ws.length) :
    (storeAll m a ws).lookup (a + k) = ws[k] := by
  induction ws generalizing m a k with
  | nil => cases hk
  | cons w ws ih =>
    have hwf := Memory.store_wf m hm a w
    cases k with
    | zero =>
      exact (lookup_storeAll_of_lt _ hwf _ ws a (by omega)).trans (by rw [Memory.lookup_store m hm, if_pos rfl]; rfl)
    | succ k =>
      rw [show a + (k + 1) = a + 1 + k by omega]
      exact ih _ hwf (a + 1) k (Nat.lt_of_succ_lt_succ hk)

/-- Four words fit where an instruction is placed. -/
theorem fetchBase_le (s : State) : fetchBase s + 4 ≤ Config.lenMax := by
  unfold fetchBase
  split
  · rename_i h
    obtain ⟨h0, h4⟩ := h
    omega
  · decide

@[simp] theorem tableWords_length (nbits w : Nat) : (tableWords nbits w).length = 4 := by
  simp [tableWords]

/-- The next step after `withFetchWord` fetches the instruction placed. -/
theorem fetch_withFetchWord (s : State) (nbits w : Nat) (i : Instr) (hm : s.mem.wf)
    (hd : decodeTableWord nbits w = some i) : fetch (s.withFetchWord nbits w) = .ok i := by
  obtain ⟨rest, hdec⟩ : ∃ rest, decode (tableWords nbits w) = .ok (i, rest) := by
    unfold decodeTableWord at hd
    split at hd
    · cases hd
      exact ⟨_, ‹_›⟩
    · cases hd
  have hbase : fetchBase s + 4 ≤ 2 ^ 63 - 4 := fetchBase_le s
  have hip : (s.withFetchWord nbits w).ip.toInt = fetchBase s := by
    obtain ⟨hn, h0⟩ := ofNat_of_lt (fetchBase s) (by omega)
    exact (toInt_nonneg _ h0).2.trans (congrArg _ hn)
  refine fetch_of_decode _ _ rest i hdec (by omega) ?_ fun k hk => ?_
  · rw [hip, tableWords_length]
    simp [State.withFetchWord]
  · rw [hip]
    exact lookup_storeAll s.mem hm _ _ k hk

end Sys2Proof.Machine
end

section
/-! The statements about the encoding (30_encoding.md), settled. -/

namespace Sys2Proof.Proofs

open Sys2Proof Sys2Proof.Machine Sys2Proof.Claims

/-- Settles O1: the words written are an instruction word of the instruction's opcode and modes, and its parameter
words, and the instruction is assembled from these. -/
theorem decodeEncodeRoundTrip : Obligations.DecodeEncodeRoundTrip := by
  intro i rest
  have hd := decode_headWord (opcodeOf i) (instrModes i) (instrModes_mem i) (instrParams i) rest (instrParams_length i)
  rwa [assemble_instr, ← List.cons_append, ← encode_eq] at hd

/-- Settles O2: a canonical word is one the encoder writes for canonical modes, and what it assembles has these. -/
theorem canonicalEncodingRoundTrip : Obligations.CanonicalEncodingRoundTrip := by
  intro ws h
  obtain ⟨op, ms, hms, ps, rfl, hps⟩ := canonicalEncoding_cases ws h
  have hd := decode_headWord op ms hms ps [] hps
  rw [List.append_nil] at hd
  exact ⟨_, hd, encode_assemble op ms hms ps hps⟩

/-- Settles O3: each opcode under each of its canonical modes is a listed word, and each listed word is canonical. -/
theorem canonicalWordsAreTheListed : Obligations.CanonicalWordsAreTheListed := by
  refine fun w => ⟨fun h => ?_, canonicalWord_of_listed w⟩
  obtain ⟨op, ms, hms, rfl⟩ := exists_headWord_of_canonicalWord w h
  exact headWord_listed op ms hms

/-- Settles O5, by the checks of the decoder in their order. -/
theorem decoderFollowsItsRule : Obligations.DecoderFollowsItsRule := by
  refine fun w => ⟨decodeWord_negative w, decodeWord_unsupported w, fun h0 hs hd => ?_, fun h0 hs hd => ?_⟩
  · obtain ⟨op, hop⟩ := (mem_supported_iff _).1 hs
    exact decodeWord_digitsInvalid w op h0 hop hd
  · obtain ⟨op, hop⟩ := (mem_supported_iff _).1 hs
    exact ⟨_, decodeWord_digitsValid w op h0 hop hd, hop.symm, by simp [modesOf],
      fun i hi => modesOf_getElem? op _ i hi⟩

/-- Settles O6: the decoder's second check is the error of the step. -/
theorem unknownOpcodeFaults : Obligations.UnknownOpcodeFaults :=
  fun s hs hb h0 hop => step_decodeWord_error s _ hs hb (decodeWord_unsupported _ h0 hop)

/-- Settles O7: the decoder's first and third check are errors of the step. -/
theorem otherDecodeErrorsFault : Obligations.OtherDecodeErrorsFault := by
  refine fun s hs hb => ⟨fun h => step_decodeWord_error s _ hs hb (decodeWord_negative _ h), fun h0 hsup hbad => ?_⟩
  obtain ⟨op, hop⟩ := (mem_supported_iff _).1 hsup
  obtain ⟨k, hk⟩ := hbad
  have hd : ¬ DigitsValid (instrWord s) := fun h => absurd (h k) (by omega)
  exact step_decodeWord_error s _ hs hb (decodeWord_digitsInvalid _ op h0 hop hd)

/-- Settles O8: assembling reads the modes of value parameters only, and a word below 2^63 whose digit 4 or 2 is 0
stays below it when the digit is 1. -/
theorem writeDigitIsIgnored : Obligations.WriteDigitIsIgnored := by
  intro w ps h0
  have hlt := (toInt_nonneg w h0).1
  refine ⟨fun hop hd => ?_, fun hop hd => ?_, fun i rest dst hdec hdst => ?_⟩
  · have hlt' : w.toNat + 100 * 10 ^ 2 < 2 ^ 63 := by
      unfold digit at hd
      omega
    simp only [List.mem_cons, List.not_mem_nil, or_false] at hop
    obtain hop | hop | hop | hop := hop
    · exact decode_add_write_digit w .add 2 ps h0 hop rfl hd hlt'
    · exact decode_add_write_digit w .mul 2 ps h0 hop rfl hd hlt'
    · exact decode_add_write_digit w .lt 2 ps h0 hop rfl hd hlt'
    · exact decode_add_write_digit w .eq 2 ps h0 hop rfl hd hlt'
  · have hlt' : w.toNat + 100 * 10 ^ 0 < 2 ^ 63 := by
      unfold digit at hd
      omega
    exact decode_add_write_digit w .inp 0 ps h0 hop rfl hd hlt'
  · obtain ⟨w', ps', h, hws, hps, -, rfl⟩ := decode_ok _ _ _ hdec
    obtain ⟨-, rfl⟩ := List.cons.inj hws
    have hdst := destinationOf_assemble h ps' dst hps hdst
    rw [opcodeOf_assemble]
    rw [List.getElem?_append_left (List.getElem?_eq_some_iff.1 hdst).1, hdst]

/-- Settles O9: cutting off digits keeps the opcode, the digits of the parameters, and that every digit is valid. -/
theorem extraDigitsSelectNothing : Obligations.ExtraDigitsSelectNothing :=
  decodeWord_mod_pow

/-- Settles O57: the words placed are read back by the fetch and decode as they did before. -/
theorem placedInstructionRuns : Obligations.PlacedInstructionRuns :=
  fun s nbits w i hm hd => step_fetched _ i rfl (fetch_withFetchWord s nbits w i hm hd)

/-- Settles O4, by running the decoder on each. -/
theorem specWordsDecode : Obligations.SpecWordsDecode :=
  ⟨by decide, by decide, by decide, by decide, by decide, by decide⟩

end Sys2Proof.Proofs
end

section
/-! The laws behind the statements about the execution cycle (40_execution_cycle.md): the fetch of the parameter words
and the instruction they make (R83, R84), and what a failing step keeps (R89). -/

namespace Sys2Proof.Machine

open Sys2Proof.Claims

/-- Everything a slice of at least one word that succeeds says (R43). -/
theorem Image.slice_ok {img : Image} {a : Int} {n : Nat} {ws : List Word} (h : img.slice a n = .ok ws)
    (hne : ws ≠ []) :
    0 ≤ a ∧ a + n ≤ (img.len : Int) ∧ ws = (List.range n).map fun k => img.word (a.toNat + k) := by
  have hlen := Image.slice_length _ _ _ _ h
  have hn : n ≠ 0 := fun h0 => hne (List.length_eq_zero_iff.1 (hlen.trans h0))
  by_cases hb : 0 ≤ a ∧ a + n ≤ (img.len : Int)
  · rw [Image.slice_inBounds _ _ _ hb.1 hb.2] at h
    exact ⟨hb.1, hb.2, (Except.ok.inj h).symm⟩
  · rw [Image.slice_outOfBounds _ _ _ hn hb] at h
    cases h

/-- A decoded instruction word leaves the parameter fetch to be done. -/
theorem fetch_decodeWord_ok {s : State} {h : Header} (hb : s.InBounds s.ip.toInt)
    (hw : decodeWord (instrWord s) = .ok h) : fetch s = fetchParams s h := by
  rw [fetch_inBounds s hb, show s.word s.ip.toInt.toNat = instrWord s from rfl, hw]

/-- Where the parameter words lie inside the image, the step is the effect of the instruction they make. -/
theorem step_params_inBounds {s : State} {h : Header} (hs : s.status = .running) (hb : s.InBounds s.ip.toInt)
    (hw : decodeWord (instrWord s) = .ok h) (hfit : s.ip.toInt + 1 + paramCount h.op ≤ (s.len : Int)) :
    step s = exec (assemble h ((List.range (paramCount h.op)).map (rawParam s))) s :=
  step_fetched s _ hs ((fetch_decodeWord_ok hb hw).trans (fetchParams_inBounds s h hb hfit))

/-- Where a parameter word lies outside the image, the step is `OutOfBounds`. -/
theorem step_params_outOfBounds {s : State} {h : Header} (hs : s.status = .running) (hb : s.InBounds s.ip.toInt)
    (hw : decodeWord (instrWord s) = .ok h) (hn : 1 ≤ paramCount h.op)
    (hout : (s.len : Int) < s.ip.toInt + 1 + paramCount h.op) : step s = .next (failed .outOfBounds s) :=
  step_unfetched s _ hs ((fetch_decodeWord_ok hb hw).trans (fetchParams_outOfBounds s h (by omega) (by omega)))

theorem step_outOfBounds {s : State} (hs : s.status = .running) (hb : ¬ s.InBounds s.ip.toInt) :
    step s = .next (failed .outOfBounds s) :=
  step_unfetched s _ hs (fetch_outOfBounds s hb)

/-- The only effect that ends in `Failed` is error entry. -/
theorem ExecEffect.eq_failed {i : Instr} {s t : State} {k : RunError} (h : ExecEffect i s t)
    (hs : s.status = .running) (hk : t.status = .failed k) : t = failed k s := by
  cases h with
  | store | output | jump | fallThrough => exact absurd (hs.symm.trans hk) (by simp)
  | halt => cases hk
  | fail =>
    cases hk
    rfl

/-- The instruction of an opcode whose value parameters and write parameter are those at `ip`. -/
def instrAt (op : Opcode) (s : State) : Instr :=
  match op with
  | .add => .add (valueAt s 0) (valueAt s 1) (rawParam s 2)
  | .mul => .mul (valueAt s 0) (valueAt s 1) (rawParam s 2)
  | .inp => .inp (rawParam s 0)
  | .out => .out (valueAt s 0)
  | .jnz => .jnz (valueAt s 0) (valueAt s 1)
  | .jz => .jz (valueAt s 0) (valueAt s 1)
  | .lt => .lt (valueAt s 0) (valueAt s 1) (rawParam s 2)
  | .eq => .eq (valueAt s 0) (valueAt s 1) (rawParam s 2)
  | .halt => .halt

/-- Parameter i of a decoded word at `ip`, its mode from digit i of the mode field (R84). -/
theorem valueParam_eq_valueAt (op : Opcode) (s : State) (i : Nat) (hi : i < paramCount op) :
    valueParam ⟨op, modesOf op ((instrWord s).toNat / 100)⟩ ((List.range (paramCount op)).map (rawParam s)) i =
      valueAt s i := by
  have hraw : ((List.range (paramCount op)).map (rawParam s)).getD i 0 = rawParam s i := by simp [hi]
  rw [valueParam, hraw, List.getD_eq_getElem?_getD, modesOf_getElem? op _ i hi, Option.getD_some, modeOfDigit,
    valueAt]
  split <;> rfl

/-- A decoded word at `ip` and its parameter words make the instruction at `ip`. -/
theorem assemble_eq_instrAt (op : Opcode) (s : State) :
    assemble ⟨op, modesOf op ((instrWord s).toNat / 100)⟩ ((List.range (paramCount op)).map (rawParam s)) =
      instrAt op s := by
  have hv := valueParam_eq_valueAt op s
  cases op with
  | add | mul | lt | eq =>
    simp only [assemble, hv 0 (by decide), hv 1 (by decide)]
    rfl
  | jnz | jz => simp only [assemble, hv 0 (by decide), hv 1 (by decide), instrAt]
  | out => simp only [assemble, hv 0 (by decide), instrAt]
  | inp | halt => rfl

/-- A step whose word decodes and whose parameter words lie inside the image is the effect of the instruction
at `ip`. -/
theorem step_instrAt {s : State} {h : Header} (hs : s.status = .running) (hb : s.InBounds s.ip.toInt)
    (hw : decodeWord (instrWord s) = .ok h) (hfit : s.ip.toInt + 1 + paramCount h.op ≤ (s.len : Int)) :
    step s = exec (instrAt h.op s) s := by
  obtain ⟨-, -, -, hm⟩ := decodeWord_ok _ h hw
  rw [step_params_inBounds hs hb hw hfit, ← assemble_eq_instrAt, ← hm]

end Sys2Proof.Machine
end

section
/-! The step against the pseudocode of R90 on integers (40_execution_cycle.md): what the pseudocode reads, computes and
stores is the view of what the model does. -/

namespace Sys2Proof.Machine

open Sys2Proof.Claims

/-! The results of format A on the integers (R100, R101, R130, R131). -/

theorem addW_toInt (a b : Word) : (addW a b).toInt = wrapInt (a.toInt + b.toInt) := wrapW_toInt _

theorem mulW_toInt (a b : Word) : (mulW a b).toInt = wrapInt (a.toInt * b.toInt) := wrapW_toInt _

theorem truthWord_toInt (p : Prop) [Decidable p] : (truthWord (decide p)).toInt = if p then 1 else 0 := by
  by_cases h : p <;> simp [truthWord, h]

theorem ltW_toInt (a b : Word) : (ltW a b).toInt = if a.toInt < b.toInt then 1 else 0 := truthWord_toInt _

theorem eqW_toInt (a b : Word) : (eqW a b).toInt = if a.toInt = b.toInt then 1 else 0 := truthWord_toInt _

/-! The view of a state: its reads and its updates. -/

@[simp] theorem pview_mem_length (s : State) : (pview s).mem.length = s.len := by simp [pview]

@[simp] theorem pview_ip (s : State) : (pview s).ip = s.ip.toInt := rfl

/-- `MemRead(a, 1)` of the view (R41). -/
theorem pread_pview (s : State) (a : Int) :
    pread (pview s).mem a = if s.InBounds a then some (s.word a.toNat).toInt else none := by
  by_cases h0 : 0 ≤ a
  · by_cases h1 : a < s.len
    · simp [pread, pview, h0, h1, show a.toNat < s.len by omega]
    · simp [pread, pview, h0, h1]
  · simp [pread, h0]

theorem pread_pview_eq_none_iff (s : State) (a : Int) : pread (pview s).mem a = none ↔ ¬ s.InBounds a := by
  simp [pread_pview]

/-- A store in the image is one in the sequence of words (R42). -/
theorem pview_store (s : State) (hm : s.mem.wf) (a : Nat) (v : Word) :
    pview (s.withImage { s.toImage with mem := s.mem.store a v }) =
      { pview s with mem := (pview s).mem.set a v.toInt } := by
  have hmem : (pview (s.withImage { s.toImage with mem := s.mem.store a v })).mem =
      (pview s).mem.set a v.toInt := by
    refine List.ext_getElem (by simp [pview, State.withImage]) fun k _ _ => ?_
    simp only [pview, State.withImage_toImage, List.getElem_map, List.getElem_range, List.getElem_set,
      Image.word_store _ hm]
    by_cases hk : a = k
    · simp [hk]
    · simp [hk, Ne.symm hk]
  exact congrArg (fun m => { pview s with mem := m }) hmem

/-- The default advance does not wrap (R24). -/
theorem pview_advance (s : State) (hlen : s.len ≤ Config.lenMax) (hb : s.InBounds s.ip.toInt) (op : Opcode) :
    pview (s.advance (paramCount op)) = { pview s with ip := (pview s).ip + (1 + paramCount op : Nat) } := by
  have hip : (s.advance (paramCount op)).ip.toInt = s.ip.toInt + (1 + paramCount op : Nat) := by
    rw [State.advance_ip, advance_toInt hlen hb op, Nat.cast_add, Nat.cast_one, add_assoc]
  exact congrArg (fun i => { pview s with ip := i }) hip

/-! An outcome of the model against a state of the pseudocode. -/

/-- The outcome is a next state, and the pseudocode's state is its view. -/
def Refines (o : Host.Outcome State Fault Refusal) (p : PState) : Prop := ∃ t, o = .next t ∧ pview t = p

theorem refines_raise (k : RunError) (s : State) : Refines (raise k s) (pfail k (pview s)) := ⟨_, rfl, rfl⟩

/-- A store inside the image and the default advance are those of the pseudocode (R88). -/
theorem refines_storeAndAdvance {s : State} (hinv : s.Inv) (hb : s.InBounds s.ip.toInt) {dst : Word}
    (hw : Writable dst s) (v : Word) (op : Opcode) :
    Refines (storeAndAdvance dst v (paramCount op) s) (pstore dst.toInt v.toInt (paramCount op) (pview s)) := by
  obtain ⟨hm, -, hlen⟩ := hinv
  have hadvance := pview_advance (s.withImage { s.toImage with mem := s.mem.store dst.toInt.toNat v }) hlen hb op
  refine ⟨_, storeAndAdvance_writable _ _ _ _ hw, hadvance.trans ?_⟩
  rw [pview_store s hm, pstore, Nat.cast_add, Nat.cast_one, ← add_assoc]

/-! The parameters of the pseudocode. -/

/-- `p[i]` of the pseudocode (R83). -/
def praw (p : PState) (i : Nat) : Int := (pread p.mem (p.ip + 1 + i)).getD 0

/-- `value(i)` of the pseudocode (R84). -/
def pvalue (modes : Nat) (p : PState) (i : Nat) : Option Int :=
  if modes / 10 ^ i % 10 = 1 then some (praw p i) else pread p.mem (praw p i)

theorem poperands_eq (op modes nv nw : Nat) (p : PState) :
    poperands op modes nv nw p =
      if 1 ≤ nv + nw ∧ (p.mem.length : Int) < p.ip + 1 + (nv + nw : Nat) then pfail .outOfBounds p
      else if (∃ i < nv, pvalue modes p i = none) then pfail .outOfBounds p
      else if nw = 1 ∧ pread p.mem (praw p nv) = none then pfail .outOfBounds p
      else peffect op ((pvalue modes p 0).getD 0) ((pvalue modes p 1).getD 0) (praw p nv) p := rfl

theorem praw_pview {s : State} {i : Nat} (h0 : 0 ≤ s.ip.toInt) (hi : s.ip.toInt + 1 + i < (s.len : Int)) :
    praw (pview s) i = (rawParam s i).toInt := by
  have haddr : (s.ip.toInt + 1 + i).toNat = ipNat s + 1 + i := by
    unfold ipNat
    omega
  rw [praw, pview_ip, pread_pview, if_pos ⟨by omega, hi⟩, haddr, Option.getD_some, rawParam]

/-- The value of a parameter, where it resolves. -/
theorem pvalue_pview {s : State} {i : Nat} (h0 : 0 ≤ s.ip.toInt) (hi : s.ip.toInt + 1 + i < (s.len : Int)) :
    pvalue ((instrWord s).toNat / 100) (pview s) i =
      if Readable (valueAt s i) s then some (operandWord (valueAt s i) s).toInt else none := by
  rw [pvalue, valueAt, praw_pview h0 hi, digit]
  split
  · rfl
  · simp only [pread_pview, readable_position, operandWord]

theorem pvalue_readable {s : State} {i : Nat} (h0 : 0 ≤ s.ip.toInt) (hi : s.ip.toInt + 1 + i < (s.len : Int))
    (hr : Readable (valueAt s i) s) :
    (pvalue ((instrWord s).toNat / 100) (pview s) i).getD 0 = (operandWord (valueAt s i) s).toInt := by
  rw [pvalue_pview h0 hi, if_pos hr, Option.getD_some]

section
variable {s : State} {op nv nw : Nat} (hb : s.InBounds s.ip.toInt)
  (hfit : s.ip.toInt + 1 + (nv + nw : Nat) ≤ (s.len : Int))
include hb hfit

theorem exists_pvalue_none_iff :
    (∃ i < nv, pvalue ((instrWord s).toNat / 100) (pview s) i = none) ↔ ¬ ∀ i < nv, Readable (valueAt s i) s := by
  push Not
  refine exists_congr fun i => and_congr_right fun hi => ?_
  rw [pvalue_pview hb.1 (by omega)]
  simp

theorem write_fails_iff :
    (nw = 1 ∧ pread (pview s).mem (praw (pview s) nv) = none) ↔ ¬ (nw = 1 → Writable (rawParam s nv) s) := by
  rw [Classical.not_imp]
  refine and_congr_right fun hnw => ?_
  rw [praw_pview hb.1 (by omega), pread_pview_eq_none_iff]

/-- The pseudocode enters `OutOfBounds` where a value does not resolve or the write address is outside. -/
theorem poperands_fails (h : ¬ ((∀ i < nv, Readable (valueAt s i) s) ∧ (nw = 1 → Writable (rawParam s nv) s))) :
    poperands op ((instrWord s).toNat / 100) nv nw (pview s) = pfail .outOfBounds (pview s) := by
  rw [poperands_eq]
  simp only [exists_pvalue_none_iff hb hfit, write_fails_iff hb hfit]
  split_ifs with _ hr hw
  · rfl
  · exact absurd ⟨hr, hw⟩ h
  · rfl
  · rfl

/-- The pseudocode goes on to its dispatch where the values resolve and the write address is inside. -/
theorem poperands_completes (hr : ∀ i < nv, Readable (valueAt s i) s) (hw : nw = 1 → Writable (rawParam s nv) s) :
    poperands op ((instrWord s).toNat / 100) nv nw (pview s) =
      peffect op ((pvalue ((instrWord s).toNat / 100) (pview s) 0).getD 0)
        ((pvalue ((instrWord s).toNat / 100) (pview s) 1).getD 0) (praw (pview s) nv) (pview s) := by
  have hwords : ¬ (1 ≤ nv + nw ∧ ((pview s).mem.length : Int) < (pview s).ip + 1 + (nv + nw : Nat)) := by
    rw [pview_mem_length]
    exact fun h => absurd h.2 (not_lt.2 hfit)
  rw [poperands_eq, if_neg hwords, if_neg fun h => (exists_pvalue_none_iff hb hfit).1 h hr,
    if_neg fun h => (write_fails_iff hb hfit).1 h hw]

end

theorem forall_lt_two_readable (s : State) :
    (∀ i < 2, Readable (valueAt s i) s) ↔ Readable (valueAt s 0) s ∧ Readable (valueAt s 1) s := by
  refine ⟨fun h => ⟨h 0 (by decide), h 1 (by decide)⟩, fun ⟨h0, h1⟩ i hi => ?_⟩
  interval_cases i
  · exact h0
  · exact h1

/-! The dispatch of the pseudocode, one lemma for each format of instruction (R64). -/

section
variable {s : State} (hinv : s.Inv) (hb : s.InBounds s.ip.toInt)
include hinv hb

/-- Format A: a word that stores the integer `g` of its two values. -/
theorem refines_binaryStore {f : Word → Word → Word} {g : Int → Int → Int} {op : Nat}
    (hf : ∀ a b, (f a b).toInt = g a.toInt b.toInt)
    (hop : ∀ v0 v1 dst p, peffect op v0 v1 dst p = pstore dst (g v0 v1) 3 p)
    (hfit : s.ip.toInt + 1 + (2 + 1 : Nat) ≤ (s.len : Int)) :
    Refines (binaryStore f (valueAt s 0) (valueAt s 1) (rawParam s 2) s)
      (poperands op ((instrWord s).toNat / 100) 2 1 (pview s)) := by
  by_cases hr : Readable (valueAt s 0) s ∧ Readable (valueAt s 1) s
  · rw [binaryStore_readable f _ _ _ s hr.1 hr.2]
    by_cases hw : Writable (rawParam s 2) s
    · have hread := (forall_lt_two_readable s).2 hr
      rw [poperands_completes hb hfit hread fun _ => hw, hop, pvalue_readable hb.1 (by omega) hr.1,
        pvalue_readable hb.1 (by omega) hr.2, praw_pview hb.1 (by omega), ← hf]
      exact refines_storeAndAdvance hinv hb hw _ .add
    · rw [storeAndAdvance_unwritable _ _ _ _ hw, poperands_fails hb hfit fun h => hw (h.2 rfl)]
      exact refines_raise _ s
  · rw [binaryStore_unreadable f _ _ _ s hr,
      poperands_fails hb hfit fun h => hr ((forall_lt_two_readable s).1 h.1)]
    exact refines_raise _ s

/-- Format J: a jump that is taken when `q` of its condition. -/
theorem refines_conditionalJump {taken : Word → Bool} {q : Int → Prop} [DecidablePred q] {op : Nat}
    (ht : ∀ c, taken c = decide (q c.toInt))
    (hop : ∀ v0 v1 dst p, peffect op v0 v1 dst p =
      if q v0 then { p with ip := v1 } else { p with ip := p.ip + 3 })
    (hfit : s.ip.toInt + 1 + (2 + 0 : Nat) ≤ (s.len : Int)) :
    Refines (conditionalJump taken (valueAt s 0) (valueAt s 1) s)
      (poperands op ((instrWord s).toNat / 100) 2 0 (pview s)) := by
  by_cases hr : Readable (valueAt s 0) s ∧ Readable (valueAt s 1) s
  · have hread := (forall_lt_two_readable s).2 hr
    rw [poperands_completes hb hfit hread fun h => absurd h (by decide), hop,
      pvalue_readable hb.1 (by omega) hr.1, pvalue_readable hb.1 (by omega) hr.2]
    refine ⟨_, conditionalJump_readable taken _ _ s hr.1 hr.2, ?_⟩
    rw [ht]
    by_cases hq : q (operandWord (valueAt s 0) s).toInt
    · simp only [hq, decide_true, if_true]
      rfl
    · simp only [hq, decide_false, Bool.false_eq_true, if_false]
      exact pview_advance s hinv.2.2 hb .jnz
  · rw [conditionalJump_unreadable taken _ _ s hr,
      poperands_fails hb hfit fun h => hr ((forall_lt_two_readable s).1 h.1)]
    exact refines_raise _ s

theorem refines_execInp (hfit : s.ip.toInt + 1 + (0 + 1 : Nat) ≤ (s.len : Int)) :
    Refines (execInp (rawParam s 0) s) (poperands 3 ((instrWord s).toNat / 100) 0 1 (pview s)) := by
  by_cases hw : Writable (rawParam s 0) s
  · rw [poperands_completes hb hfit (fun i hi => absurd hi i.not_lt_zero) fun _ => hw,
      praw_pview hb.1 (by omega)]
    exact refines_storeAndAdvance hinv hb hw s.io .inp
  · rw [execInp, storeAndAdvance_unwritable _ _ _ _ hw, poperands_fails hb hfit fun h => hw (h.2 rfl)]
    exact refines_raise _ s

theorem refines_execOut (hfit : s.ip.toInt + 1 + (1 + 0 : Nat) ≤ (s.len : Int)) :
    Refines (execOut (valueAt s 0) s) (poperands 4 ((instrWord s).toNat / 100) 1 0 (pview s)) := by
  by_cases hr : Readable (valueAt s 0) s
  · have hread : ∀ i < 1, Readable (valueAt s i) s := by simpa using hr
    rw [execOut, value_readable _ s hr, attempt_ok,
      poperands_completes hb hfit hread fun h => absurd h (by decide), pvalue_readable hb.1 (by omega) hr]
    exact ⟨_, rfl, pview_advance (s.setIo (operandWord (valueAt s 0) s)) hinv.2.2 hb .out⟩
  · rw [execOut, value_unreadable _ s hr, attempt_error, poperands_fails hb hfit fun h => hr (h.1 0 (by decide))]
    exact refines_raise _ s

end

theorem refines_execHalt {s : State} (hb : s.InBounds s.ip.toInt)
    (hfit : s.ip.toInt + 1 + (0 + 0 : Nat) ≤ (s.len : Int)) :
    Refines (execHalt s) (poperands 99 ((instrWord s).toNat / 100) 0 0 (pview s)) := by
  rw [poperands_completes hb hfit (fun i hi => absurd hi i.not_lt_zero) fun h => absurd h (by decide)]
  exact ⟨_, rfl, rfl⟩

/-! The checks of the pseudocode, and its step. -/

/-- How many value parameters an opcode has (Table E2). -/
def valueCount (op : Opcode) : Nat := (paramRoles op).count .value

/-- How many write parameters an opcode has (Table E2). -/
def writeCount (op : Opcode) : Nat := (paramRoles op).count .write

theorem valueCount_add_writeCount (op : Opcode) : valueCount op + writeCount op = paramCount op := by
  cases op <;> rfl

theorem pparams_opcodeNumber (op : Opcode) : pparams (opcodeNumber op) = some (valueCount op, writeCount op) := by
  cases op <;> rfl

theorem pparams_unsupported {n : Nat} (h : n ∉ supported) : pparams n = none := by
  unfold pparams
  split
  case h_10 => rfl
  all_goals exact absurd (by decide) h

/-- The pseudocode's check of the mode field is R69's, digit for digit. -/
theorem exists_digit_iff (w : Word) : (∃ d ∈ Nat.digits 10 (w.toNat / 100), 2 ≤ d) ↔ ¬ DigitsValid w := by
  have hdigit (k : Nat) : (Nat.digits 10 (w.toNat / 100)).getD k 0 = digit k (w.toNat / 100) :=
    Nat.getD_digits _ _ (by decide)
  unfold DigitsValid
  push Not
  constructor
  · rintro ⟨d, hd, h2⟩
    obtain ⟨k, hk, rfl⟩ := List.getElem_of_mem hd
    refine ⟨k, ?_⟩
    rw [← hdigit, List.getD_eq_getElem _ _ hk]
    omega
  · rintro ⟨k, hk⟩
    rw [← hdigit] at hk
    have hlt : k < (Nat.digits 10 (w.toNat / 100)).length := by
      by_contra hge
      rw [List.getD_eq_default _ _ (not_lt.1 hge)] at hk
      omega
    rw [List.getD_eq_getElem _ _ hlt] at hk
    exact ⟨_, List.getElem_mem hlt, hk⟩

theorem pstep_outOfBounds {s : State} (hb : ¬ s.InBounds s.ip.toInt) :
    pstep (pview s) = pfail .outOfBounds (pview s) := by
  rw [pstep, pview_ip, (pread_pview_eq_none_iff s _).2 hb]

/-- The pseudocode makes the decoder's checks, in its order (R72, R82). -/
theorem pstep_decodeWord {s : State} (hb : s.InBounds s.ip.toInt) :
    pstep (pview s) =
      match decodeWord (instrWord s) with
      | .error e => pfail (runErrorOf e) (pview s)
      | .ok h => poperands (opcodeNumber h.op) ((instrWord s).toNat / 100) (valueCount h.op) (writeCount h.op)
          (pview s) := by
  have hread : pread (pview s).mem s.ip.toInt = some (instrWord s).toInt := (pread_pview s _).trans (if_pos hb)
  simp only [pstep, pview_ip, hread]
  by_cases hneg : (instrWord s).toInt < 0
  · rw [if_pos hneg, decodeWord_negative _ hneg]
    rfl
  have hnat : (instrWord s).toInt.toNat = (instrWord s).toNat := by
    have := (toInt_nonneg (instrWord s) (by omega)).2
    omega
  rw [if_neg hneg, hnat]
  by_cases hsup : (instrWord s).toNat % 100 ∈ supported
  · obtain ⟨op, hop⟩ := (mem_supported_iff _).1 hsup
    rw [hop, pparams_opcodeNumber]
    by_cases hd : DigitsValid (instrWord s)
    · simp only [exists_digit_iff, hd, decodeWord_digitsValid _ op (by omega) hop hd, not_true_eq_false, if_false]
    · simp only [exists_digit_iff, hd, decodeWord_digitsInvalid _ op (by omega) hop hd, not_false_eq_true, if_true]
      rfl
  · rw [pparams_unsupported hsup, decodeWord_unsupported _ (by omega) hsup]
    rfl

/-- The effect of the instruction at `ip` is what the pseudocode does from the decoded opcode on (R84 to R88). -/
theorem refines_exec_instrAt {s : State} (hinv : s.Inv) (hb : s.InBounds s.ip.toInt) (op : Opcode)
    (hfit : s.ip.toInt + 1 + paramCount op ≤ (s.len : Int)) :
    Refines (exec (instrAt op s) s)
      (poperands (opcodeNumber op) ((instrWord s).toNat / 100) (valueCount op) (writeCount op) (pview s)) := by
  cases op with
  | add => exact refines_binaryStore hinv hb addW_toInt (fun _ _ _ _ => rfl) hfit
  | mul => exact refines_binaryStore hinv hb mulW_toInt (fun _ _ _ _ => rfl) hfit
  | lt => exact refines_binaryStore hinv hb ltW_toInt (fun _ _ _ _ => rfl) hfit
  | eq => exact refines_binaryStore hinv hb eqW_toInt (fun _ _ _ _ => rfl) hfit
  | jnz => exact refines_conditionalJump hinv hb (fun _ => rfl) (fun _ _ _ _ => rfl) hfit
  | jz => exact refines_conditionalJump hinv hb (fun _ => rfl) (fun _ _ _ _ => rfl) hfit
  | inp => exact refines_execInp hinv hb hfit
  | out => exact refines_execOut hinv hb hfit
  | halt => exact refines_execHalt hb hfit

/-- The parameter fetch and the effect of a decoded word are the pseudocode's from the decoded opcode on. -/
theorem refines_step_decoded {s : State} {h : Header} (hinv : s.Inv) (hs : s.status = .running)
    (hb : s.InBounds s.ip.toInt) (hw : decodeWord (instrWord s) = .ok h) :
    Refines (step s) (poperands (opcodeNumber h.op) ((instrWord s).toNat / 100) (valueCount h.op) (writeCount h.op)
      (pview s)) := by
  by_cases hfit : s.ip.toInt + 1 + paramCount h.op ≤ (s.len : Int)
  · rw [step_instrAt hs hb hw hfit]
    exact refines_exec_instrAt hinv hb h.op hfit
  · have hn : 1 ≤ paramCount h.op := by
      have := hb.2
      omega
    rw [poperands_eq, if_pos, step_params_outOfBounds hs hb hw hn (by omega)]
    · exact ⟨_, rfl, rfl⟩
    · rw [valueCount_add_writeCount, pview_mem_length]
      exact ⟨hn, not_le.1 hfit⟩

end Sys2Proof.Machine
end

section
/-! The statements about the execution cycle (40_execution_cycle.md), settled. -/

namespace Sys2Proof.Proofs

open Sys2Proof Sys2Proof.Machine Sys2Proof.Claims

/-- Settles O24, by the phases of a step: the fetch, the decoder's checks, then the parameter fetch and the effect. -/
theorem stepRefinesThePseudocode : Obligations.StepRefinesThePseudocode := by
  intro s hinv hs
  by_cases hb : s.InBounds s.ip.toInt
  · rw [pstep_decodeWord hb]
    cases hw : decodeWord (instrWord s) with
    | error e => exact ⟨_, step_decodeWord_error s e hs hb hw, rfl⟩
    | ok h => exact refines_step_decoded hinv hs hb hw
  · rw [pstep_outOfBounds hb]
    exact ⟨_, step_outOfBounds hs hb, rfl⟩

/-- Settles O16: the parameter fetch is one slice, and an image that holds the instruction word holds no words after
it. -/
theorem parameterFetchIsOneSlice : Obligations.ParameterFetchIsOneSlice := by
  refine fun s h hs hb hw => ⟨step_params_outOfBounds hs hb hw, fun _ => step_params_inBounds hs hb hw, fun h0 => ?_⟩
  have hfit : s.ip.toInt + 1 + paramCount h.op ≤ (s.len : Int) := by
    have := hb.2
    omega
  rw [step_params_inBounds hs hb hw hfit, h0]
  rfl

/-- Settles O17: a step fails in its fetch or in the effect of its instruction, and either is error entry. -/
theorem failingStepChangesOnlyStatus : Obligations.FailingStepChangesOnlyStatus := by
  intro s t k h hk
  obtain ⟨hs, ⟨i, -, he⟩ | ⟨e, rfl⟩⟩ := step_effect h
  · exact he.eq_failed hs hk
  · cases hk
    rfl

/-- Settles O14: words that decode are not none, so the slice lies inside the image and they are fetched. -/
theorem stepRunsTheDecodedInstruction : Obligations.StepRunsTheDecodedInstruction := by
  intro s n ws rest i hs hslice hd
  have hne : ws ≠ [] := by
    rintro rfl
    cases hd
  obtain ⟨h0, hlen, rfl⟩ := Image.slice_ok hslice hne
  exact step_fetched s i hs (fetch_of_decode s _ rest i hd h0 (by simpa using hlen) (by simp))

/-- Settles O15, by the bounds check of the fetch. -/
theorem fetchOutsideImageFaults : Obligations.FetchOutsideImageFaults :=
  fun _ hs hout => step_outOfBounds hs (Image.not_inBounds hout)

end Sys2Proof.Proofs
end

section
/-! The laws behind the statements about arithmetic (41_arithmetic.md): the canonical words of an opcode (R71), the
checks of a step whose opcode is known (R69, R83), and the rule of a format A instruction. -/

namespace Sys2Proof.Machine

open Sys2Proof.Claims

/-! The canonical words of one opcode (R71). -/

theorem opcodeNumber_injective {op op' : Opcode} (h : opcodeNumber op = opcodeNumber op') : op = op' := by
  have hsome := opcodeOfNumber_opcodeNumber op
  rw [h, opcodeOfNumber_opcodeNumber] at hsome
  exact (Option.some.inj hsome).symm

/-- The values of the instruction words that the encoder writes for an opcode, one for each of its canonical modes. -/
def canonicalValues (op : Opcode) : List Int :=
  (canonicalModeLists (paramRoles op)).map fun ms => (headWord op ms).toInt

/-- The canonical words of an opcode are those the encoder writes for it. -/
theorem canonicalOf_canonicalValues (op : Opcode) : CanonicalOf (opcodeNumber op) (canonicalValues op) := by
  intro w
  constructor
  · rintro ⟨hw, hop⟩
    obtain ⟨op', ms, hms, rfl⟩ := exists_headWord_of_canonicalWord w hw
    obtain rfl : op' = op := opcodeNumber_injective ((headWord_toNat_mod op' ms hms).symm.trans hop)
    exact List.mem_map_of_mem hms
  · intro h
    obtain ⟨ms, hms, hw⟩ := List.mem_map.1 h
    obtain rfl := BitVec.eq_of_toInt_eq hw
    exact ⟨canonicalWord_of_listed _ (headWord_listed op ms hms), headWord_toNat_mod op ms hms⟩

/-! A running step whose instruction word has a known opcode. -/

/-- The checks before the operands, in the order of the phases (R69, R83, D5). -/
theorem checksBefore_of_selects (op : Opcode) {s : State} (h : Selects (opcodeNumber op) s) :
    ChecksBefore (paramCount op) s := by
  obtain ⟨hs, hb, h0, hop⟩ := h
  exact ⟨fun hd => step_decodeWord_error s _ hs hb (decodeWord_digitsInvalid _ op h0 hop hd),
    fun hd hn hout => step_params_outOfBounds hs hb (decodeWord_digitsValid _ op h0 hop hd) hn hout⟩

/-- A step that passes those checks is the effect of the instruction at `ip`. -/
theorem step_of_fetched (op : Opcode) {s : State} (h : Selects (opcodeNumber op) s)
    (hf : Fetched (paramCount op) s) : step s = exec (instrAt op s) s := by
  obtain ⟨hs, hb, h0, hop⟩ := h
  obtain ⟨hd, hfit⟩ := hf
  exact step_instrAt hs hb (decodeWord_digitsValid _ op h0 hop hd) hfit

/-! Format A (R64). -/

/-- Where its operands resolve and its write address is inside the image, a format A instruction completes: it stores
`f` of its values, advances by 4 and leaves the rest (R85 to R88). -/
theorem binaryStore_completes (f : Word → Word → Word) {a b : Operand} {dst : Word} {s : State} (hm : s.mem.wf)
    (ha : Readable a s) (hb : Readable b s) (hw : Writable dst s) :
    ∃ t, binaryStore f a b dst s = .next t ∧ Stored dst (f (operandWord a s) (operandWord b s)) s t ∧
      t.ip = s.ip + 4 ∧ t.io = s.io ∧ t.status = s.status :=
  ⟨_, (binaryStore_readable f a b dst s ha hb).trans (storeAndAdvance_writable _ _ _ s hw),
    stored_withImage dst _ 3 s hm, rfl, rfl, rfl⟩

/-- Otherwise it enters `OutOfBounds` (R151). -/
theorem binaryStore_fails (f : Word → Word → Word) {a b : Operand} {dst : Word} {s : State}
    (h : ¬ (Readable a s ∧ Readable b s ∧ Writable dst s)) :
    binaryStore f a b dst s = .next (failed .outOfBounds s) := by
  by_cases hr : Readable a s ∧ Readable b s
  · have hw : ¬ Writable dst s := fun hw => h ⟨hr.1, hr.2, hw⟩
    exact (binaryStore_readable f a b dst s hr.1 hr.2).trans (storeAndAdvance_unwritable _ _ _ s hw)
  · exact binaryStore_unreadable f a b dst s hr

/-- A format A instruction that stores `f` of its values follows the rule of the integer operation `g` that `f` is on
words. -/
theorem ruleA_of_binaryStore (op : Opcode) {f : Word → Word → Word} {g : Int → Int → Int} (hn : paramCount op = 3)
    (hexec : ∀ s, exec (instrAt op s) s = binaryStore f (valueAt s 0) (valueAt s 1) (rawParam s 2) s)
    (hf : ∀ x y, (f x y).toInt = g x.toInt y.toInt) : RuleA (opcodeNumber op) g := by
  intro s hinv hsel
  have hchecks := checksBefore_of_selects op hsel
  have hstep (hfet : Fetched 3 s) := (step_of_fetched op hsel (hn ▸ hfet)).trans (hexec s)
  refine ⟨hn ▸ hchecks, fun hfet h => (hstep hfet).trans (binaryStore_fails f h), fun hfet ha hb hw => ?_⟩
  obtain ⟨hm, -, hlen⟩ := hinv
  obtain ⟨hs, hip, -, -⟩ := hsel
  obtain ⟨t, ht, ⟨hsame, hstored, hframe⟩, htip, hio, hst⟩ := binaryStore_completes f hm ha hb hw
  refine ⟨t, (hstep hfet).trans ht, hsame, ?_, hframe, ?_, hio, hst.trans hs⟩
  · rw [hstored, hf]
  · rw [htip]
    exact (advance_toInt hlen hip .add).trans (add_assoc _ _ _)

/-! The word range (R6, R102). -/

/-- A value in the word range is its own reduction (D1). -/
theorem wrapInt_of_inRange {v : Int} (hmin : Config.wordMin ≤ v) (hmax : v ≤ Config.wordMax) : wrapInt v = v := by
  have hmin' : -(2 ^ 63) ≤ v := hmin
  have hmax' : v ≤ 2 ^ 63 - 1 := hmax
  rw [wrapInt, Int.bmod_eq_of_le] <;> omega

end Sys2Proof.Machine
end

section
/-! The statements about arithmetic (41_arithmetic.md), settled. -/

namespace Sys2Proof.Proofs

open Sys2Proof Sys2Proof.Machine Sys2Proof.Claims

/-- Settles O25: ADD is the store of the wrapped sum, which is the exact sum reduced. -/
theorem addStoresTheWrappedSum : Obligations.AddStoresTheWrappedSum := by
  intro a b dst s hm ha hb hw
  obtain ⟨t, ht, hstored, hrest⟩ := binaryStore_completes addW hm ha hb hw
  exact ⟨t, _, ht, hstored, addW_toInt _ _, hrest⟩

/-- Settles O26, as O25 with the product. -/
theorem mulStoresTheWrappedProduct : Obligations.MulStoresTheWrappedProduct := by
  intro a b dst s hm ha hb hw
  obtain ⟨t, ht, hstored, hrest⟩ := binaryStore_completes mulW hm ha hb hw
  exact ⟨t, _, ht, hstored, mulW_toInt _ _, hrest⟩

/-- Settles O36: ADD and MUL store the wrapped result (O25, O26), and reduction leaves a value in the range alone. -/
theorem inRangeResultIsExact : Obligations.InRangeResultIsExact := by
  intro a b dst s hm ha hb hw
  obtain ⟨t, v, ht, ⟨-, hv, -⟩, hsum, -⟩ := addStoresTheWrappedSum a b dst s hm ha hb hw
  obtain ⟨u, w, hu, ⟨-, hw', -⟩, hprod, -⟩ := mulStoresTheWrappedProduct a b dst s hm ha hb hw
  refine ⟨fun hmin hmax => ⟨t, ht, ?_⟩, fun hmin hmax => ⟨u, hu, ?_⟩⟩
  · rw [hv, hsum, wrapInt_of_inRange hmin hmax]
  · rw [hw', hprod, wrapInt_of_inRange hmin hmax]

/-- Settles O38: the words the encoder writes for ADD, and the rule of format A for the wrapped sum. -/
theorem addStepRule : Obligations.AddStepRule :=
  ⟨canonicalOf_canonicalValues .add, ruleA_of_binaryStore .add rfl (fun _ => rfl) addW_toInt⟩

/-- Settles O39, as O38 with the product. -/
theorem mulStepRule : Obligations.MulStepRule :=
  ⟨canonicalOf_canonicalValues .mul, ruleA_of_binaryStore .mul rfl (fun _ => rfl) mulW_toInt⟩

end Sys2Proof.Proofs
end

section
/-! The laws behind the statements about input and output (42_io.md): what IN and OUT answer, where their parameter
lies inside the image and where it does not. -/

namespace Sys2Proof.Machine

open Sys2Proof.Claims

/-- A state with the same image reads the same words. -/
theorem sameImage_of_toImage_eq {s t : State} (h : t.toImage = s.toImage) : SameImage s t :=
  ⟨congrArg Image.len h, fun k => congrArg (Image.word · k) h⟩

/-- A store reads the same from any state with the same image. -/
theorem Stored.of_sameImage {dst v : Word} {s t u : State} (hst : SameImage s t) (h : Stored dst v t u) :
    Stored dst v s u := by
  obtain ⟨hlen, hword⟩ := hst
  obtain ⟨hlen', hv, hframe⟩ := h
  exact ⟨hlen'.trans hlen, hv, fun k hk => (hframe k hk).trans (hword k)⟩

/-- The default advance of an instruction of one parameter does not wrap inside an image of at most `LEN_MAX` words
(R24, R88). -/
theorem ip_add_two_toInt {s : State} (hlen : s.len ≤ Config.lenMax) (hb : s.InBounds s.ip.toInt) :
    (s.ip + 2).toInt = s.ip.toInt + 2 :=
  (advance_toInt hlen hb .inp).trans (add_assoc _ _ _)

/-- IN at an address inside the image stores `io` there and advances by 2 (R110). -/
theorem exec_inp_writable {dst : Word} {s : State} (h : Writable dst s) :
    exec (.inp dst) s =
      .next ((s.withImage { s.toImage with mem := s.mem.store dst.toInt.toNat s.io }).advance 1) :=
  storeAndAdvance_writable dst s.io 1 s h

/-- IN at an address outside the image enters `OutOfBounds` (R151). -/
theorem exec_inp_unwritable {dst : Word} {s : State} (h : ¬ Writable dst s) :
    exec (.inp dst) s = .next (failed .outOfBounds s) :=
  storeAndAdvance_unwritable dst s.io 1 s h

/-- OUT of an operand that resolves writes it to `io` and advances by 2 (R111). -/
theorem exec_out_readable {src : Operand} {s : State} (h : Readable src s) :
    exec (.out src) s = .next ((s.setIo (operandWord src s)).advance 1) := by
  rw [exec, execOut, value_readable src s h, attempt_ok]

/-- OUT of an operand outside the image enters `OutOfBounds` (R151). -/
theorem exec_out_unreadable {src : Operand} {s : State} (h : ¬ Readable src s) :
    exec (.out src) s = .next (failed .outOfBounds s) := by
  rw [exec, execOut, value_unreadable src s h, attempt_error]
  rfl

end Sys2Proof.Machine
end

section
/-! The statements about input and output (42_io.md), settled. -/

namespace Sys2Proof.Proofs

open Sys2Proof Sys2Proof.Machine Sys2Proof.Claims

/-- Settles O27: IN is a store of `io` and the default advance, and neither writes `io` or `status`. -/
theorem inStoresTheIoRegister : Obligations.InStoresTheIoRegister :=
  fun dst s hm hw => ⟨_, exec_inp_writable hw, stored_withImage dst s.io 1 s hm, rfl, rfl, rfl⟩

/-- Settles O28: OUT is a write of `io` and the default advance, and neither writes the image or `status`. -/
theorem outWritesTheIoRegister : Obligations.OutWritesTheIoRegister :=
  fun _ _ hr => ⟨_, exec_out_readable hr, sameImage_of_toImage_eq rfl, rfl, rfl, rfl⟩

/-- Settles O37: OUT leaves the image, so IN's address is still inside it, and what IN stores is OUT's value. -/
theorem inAfterOutStoresTheOutput : Obligations.InAfterOutStoresTheOutput := by
  intro src dst s hm hr hw
  have hsame : SameImage s ((s.setIo (operandWord src s)).advance 1) := sameImage_of_toImage_eq rfl
  obtain ⟨u, hu, hstored, -, hio, -⟩ := inStoresTheIoRegister dst ((s.setIo (operandWord src s)).advance 1) hm hw
  exact ⟨_, u, exec_out_readable hr, hu, hstored.of_sameImage hsame, hio⟩

/-- Settles O44: the words the encoder writes for IN, the checks before the operands, and the effect of IN. -/
theorem inStepRule : Obligations.InStepRule := by
  refine ⟨canonicalOf_canonicalValues .inp, fun s hinv hsel => ?_⟩
  have hstep := step_of_fetched .inp hsel
  refine ⟨checksBefore_of_selects .inp hsel, fun hfet hw => (hstep hfet).trans (exec_inp_unwritable hw),
    fun hfet hw => ?_⟩
  obtain ⟨hm, -, hlen⟩ := hinv
  obtain ⟨hs, hb, -, -⟩ := hsel
  obtain ⟨t, ht, hstored, hip, hio, hst⟩ := inStoresTheIoRegister (rawParam s 0) s hm hw
  exact ⟨t, (hstep hfet).trans ht, hstored, by rw [hip, ip_add_two_toInt hlen hb], hio, hst.trans hs⟩

/-- Settles O45: the words the encoder writes for OUT, the checks before the operands, and the effect of OUT. -/
theorem outStepRule : Obligations.OutStepRule := by
  refine ⟨canonicalOf_canonicalValues .out, fun s hinv hsel => ?_⟩
  have hstep := step_of_fetched .out hsel
  refine ⟨checksBefore_of_selects .out hsel, fun hfet hr => (hstep hfet).trans (exec_out_unreadable hr),
    fun hfet hr => ?_⟩
  obtain ⟨-, -, hlen⟩ := hinv
  obtain ⟨hs, hb, -, -⟩ := hsel
  obtain ⟨t, ht, hsame, hio, hip, hst⟩ := outWritesTheIoRegister (valueAt s 0) s hr
  exact ⟨t, (hstep hfet).trans ht, hsame, hio, by rw [hip, ip_add_two_toInt hlen hb], hst.trans hs⟩

end Sys2Proof.Proofs
end

section
/-! The laws behind the statements about the jumps (43_jump.md): what a format J instruction answers, and its rule from
the instruction word on. -/

namespace Sys2Proof.Machine

open Sys2Proof.Claims

/-- Where both operands resolve, a format J instruction whose test `taken` is the integer condition `q` completes: it
goes to its target or advances by 3, and leaves the rest (R120 to R122; D8, D10). -/
theorem conditionalJump_completes {taken : Word → Bool} {q : Int → Prop} [DecidablePred q]
    (hq : ∀ c, taken c = true ↔ q c.toInt) {c target : Operand} {s : State} (hc : Readable c s)
    (ht : Readable target s) :
    ∃ t, conditionalJump taken c target s = .next t ∧ SameImage s t ∧ t.io = s.io ∧ t.status = s.status ∧
      t.ip = if q (operandWord c s).toInt then operandWord target s else s.ip + 3 := by
  refine ⟨_, conditionalJump_readable taken c target s hc ht, ?_⟩
  by_cases hjump : q (operandWord c s).toInt
  · rw [if_pos ((hq _).2 hjump), if_pos hjump]
    exact ⟨sameImage_of_toImage_eq rfl, rfl, rfl, rfl⟩
  · rw [if_neg (mt (hq _).1 hjump), if_neg hjump]
    exact ⟨sameImage_of_toImage_eq rfl, rfl, rfl, rfl⟩

/-- The default advance of a format J instruction does not wrap inside an image of at most `LEN_MAX` words (R24, R88). -/
theorem ip_add_three_toInt {s : State} (hlen : s.len ≤ Config.lenMax) (hb : s.InBounds s.ip.toInt) :
    (s.ip + 3).toInt = s.ip.toInt + 3 :=
  (advance_toInt hlen hb .jnz).trans (add_assoc _ _ _)

/-- A format J instruction follows the rule of the integer condition `q` that its test `taken` is on words. -/
theorem ruleJ_of_conditionalJump (op : Opcode) {taken : Word → Bool} {q : Int → Prop} [DecidablePred q]
    (hn : paramCount op = 2)
    (hexec : ∀ s, exec (instrAt op s) s = conditionalJump taken (valueAt s 0) (valueAt s 1) s)
    (hq : ∀ c, taken c = true ↔ q c.toInt) : RuleJ (opcodeNumber op) q := by
  intro s hinv hsel
  have hchecks := checksBefore_of_selects op hsel
  have hstep (hfet : Fetched 2 s) := (step_of_fetched op hsel (hn ▸ hfet)).trans (hexec s)
  refine ⟨hn ▸ hchecks, fun hfet h => (hstep hfet).trans (conditionalJump_unreadable taken _ _ s h),
    fun hfet hc htarget => ?_⟩
  obtain ⟨-, -, hlen⟩ := hinv
  obtain ⟨hs, hb, -, -⟩ := hsel
  obtain ⟨t, ht, hsame, hio, hst, hip⟩ := conditionalJump_completes hq hc htarget
  refine ⟨t, (hstep hfet).trans ht, hsame, hio, hst.trans hs, fun hjump => ?_, fun hstay => ?_⟩
  · rw [hip, if_pos hjump]
  · rw [hip, if_neg hstay, ip_add_three_toInt hlen hb]

/-! The tests of the two jumps, as conditions on the integer (R120, R121). -/

theorem isNonZero_iff (c : Word) : isNonZero c = true ↔ c.toInt ≠ 0 := decide_eq_true_iff

theorem isZero_iff (c : Word) : isZero c = true ↔ c.toInt = 0 := decide_eq_true_iff

end Sys2Proof.Machine
end

section
/-! The statements about the jumps (43_jump.md), settled. -/

namespace Sys2Proof.Proofs

open Sys2Proof Sys2Proof.Machine Sys2Proof.Claims

/-- Settles O29: JNZ is the format J instruction whose test is that its condition is not 0. -/
theorem jnzJumpsIfNonZero : Obligations.JnzJumpsIfNonZero :=
  fun _ _ _ hc ht => conditionalJump_completes (q := (· ≠ 0)) isNonZero_iff hc ht

/-- Settles O30, as O29 with the test that the condition is 0. -/
theorem jzJumpsIfZero : Obligations.JzJumpsIfZero :=
  fun _ _ _ hc ht => conditionalJump_completes (q := (· = 0)) isZero_iff hc ht

/-- Settles O42: the words the encoder writes for JNZ, and the rule of format J for a condition that is not 0. -/
theorem jnzStepRule : Obligations.JnzStepRule :=
  ⟨canonicalOf_canonicalValues .jnz, ruleJ_of_conditionalJump .jnz rfl (fun _ => rfl) isNonZero_iff⟩

/-- Settles O43, as O42 for a condition that is 0. -/
theorem jzStepRule : Obligations.JzStepRule :=
  ⟨canonicalOf_canonicalValues .jz, ruleJ_of_conditionalJump .jz rfl (fun _ => rfl) isZero_iff⟩

end Sys2Proof.Proofs
end

section
/-! The laws behind the statements about comparisons (44_compare.md): the words that LT and EQ compute. -/

namespace Sys2Proof.Machine

/-- A truth value is stored as the word 1 or 0 (R130, R131). -/
theorem truthWord_decide (p : Prop) [Decidable p] : truthWord (decide p) = if p then 1 else 0 := by
  by_cases h : p
  · rw [decide_eq_true h, truthWord_true, if_pos h]
  · rw [decide_eq_false h, truthWord_false, if_neg h]

theorem ltW_eq_ite (a b : Word) : ltW a b = if a.toInt < b.toInt then 1 else 0 := truthWord_decide _

/-- Words are equal exactly when their signed values are, so EQ compares the words themselves. -/
theorem eqW_eq_ite (a b : Word) : eqW a b = if a = b then 1 else 0 :=
  (truthWord_decide _).trans (if_congr BitVec.toInt_inj rfl rfl)

end Sys2Proof.Machine
end

section
/-! The statements about comparisons (44_compare.md), settled. -/

namespace Sys2Proof.Proofs

open Sys2Proof Sys2Proof.Machine Sys2Proof.Claims

/-- Settles O31: LT is the store of the word that says whether its first value is less, as signed integers. -/
theorem ltStoresTheSignedComparison : Obligations.LtStoresTheSignedComparison := by
  intro a b dst s hm ha hb hw
  obtain ⟨t, ht, hstored, hrest⟩ := binaryStore_completes ltW hm ha hb hw
  exact ⟨t, _, ht, hstored, ltW_eq_ite _ _, hrest⟩

/-- Settles O32, as O31 with equality. -/
theorem eqStoresTheEquality : Obligations.EqStoresTheEquality := by
  intro a b dst s hm ha hb hw
  obtain ⟨t, ht, hstored, hrest⟩ := binaryStore_completes eqW hm ha hb hw
  exact ⟨t, _, ht, hstored, eqW_eq_ite _ _, hrest⟩

/-- Settles O40: the words the encoder writes for LT, and the rule of format A for the signed comparison. -/
theorem ltStepRule : Obligations.LtStepRule :=
  ⟨canonicalOf_canonicalValues .lt, ruleA_of_binaryStore .lt rfl (fun _ => rfl) ltW_toInt⟩

/-- Settles O41, as O40 with equality. -/
theorem eqStepRule : Obligations.EqStepRule :=
  ⟨canonicalOf_canonicalValues .eq, ruleA_of_binaryStore .eq rfl (fun _ => rfl) eqW_toInt⟩

end Sys2Proof.Proofs
end

section
/-! The laws behind the statements about the halt instruction (45_halt.md): what HALT answers, that the last word of
the image may hold it, and the result of a halted run. -/

namespace Sys2Proof.Machine

open Sys2Proof.Claims

/-- HALT is a write of `status` (R140). -/
theorem exec_halt (s : State) : exec .halt s = .next (s.setStatus .halted) := rfl

/-- An instruction of no parameters is whole wherever its word lies inside the image. -/
theorem fetched_zero_of_selects {op : Nat} {s : State} (h : Selects op s) (hd : DigitsValid (instrWord s)) :
    Fetched 0 s := by
  obtain ⟨-, ⟨-, hip⟩, -, -⟩ := h
  exact ⟨hd, by omega⟩

/-- The result of a halted run is `io` (R183). -/
theorem runResult_halted {s : State} (h : s.status = .halted) : runResult s = some (.ok s.io) := by
  rw [runResult, h]

/-- A halted run is over (R26). -/
theorem over_of_halted {s : State} (h : s.status = .halted) : Over s := by
  rw [Over, h]
  decide

end Sys2Proof.Machine
end

section
/-! The statements about the halt instruction (45_halt.md), settled. -/

namespace Sys2Proof.Proofs

open Sys2Proof Sys2Proof.Machine Sys2Proof.Claims

/-- Settles O33: HALT is a write of `status`, which leaves the image, `ip` and `io`. -/
theorem haltWritesOnlyStatus : Obligations.HaltWritesOnlyStatus :=
  fun s => ⟨_, exec_halt s, sameImage_of_toImage_eq rfl, rfl, rfl, rfl, rfl⟩

/-- Settles O46: the word the encoder writes for HALT, the check of the digits, and, with no parameter to fetch, the
effect of HALT, after which the run is over. -/
theorem haltStepRule : Obligations.HaltStepRule := by
  refine ⟨canonicalOf_canonicalValues .halt, fun s hsel => ?_⟩
  obtain ⟨hbad, -⟩ := checksBefore_of_selects .halt hsel
  refine ⟨hbad, fun hd => ?_⟩
  have hstep : step s = .next (s.setStatus .halted) :=
    (step_of_fetched .halt hsel (fetched_zero_of_selects hsel hd)).trans (exec_halt s)
  have hhalted := State.setStatus_status .halted s
  exact ⟨_, hstep, rfl, rfl, rfl, hhalted, runResult_halted hhalted, step_ne_next_of_over (over_of_halted hhalted)⟩

end Sys2Proof.Proofs
end

section
/-! The laws behind the statements about exceptions (60_exceptions.md): which parameters make an instruction enter
`OutOfBounds`, the places of a step that do (R151), and the steps of several cores (R164). -/

namespace Sys2Proof.Machine

open Sys2Proof.Claims

/-! The parameters of an instruction (R151 (c), (d)). -/

/-- Every value parameter of the instruction resolves and its write parameter is inside the image. -/
def ParamsInBounds : Instr → State → Prop
  | .add a b dst, s | .mul a b dst, s | .lt a b dst, s | .eq a b dst, s => Readable a s ∧ Readable b s ∧ Writable dst s
  | .inp dst, s => Writable dst s
  | .out src, s => Readable src s
  | .jnz c target, s | .jz c target, s => Readable c s ∧ Readable target s
  | .halt, _ => True

/-- An instruction with a parameter outside the image enters `OutOfBounds` (D8, D11). -/
theorem exec_fails {i : Instr} {s : State} (h : ¬ ParamsInBounds i s) : exec i s = .next (failed .outOfBounds s) := by
  cases i with
  | add a b dst | mul a b dst | lt a b dst | eq a b dst => exact binaryStore_fails _ h
  | inp dst => exact exec_inp_unwritable h
  | out src => exact exec_out_unreadable h
  | jnz c target | jz c target => exact conditionalJump_unreadable _ c target s h
  | halt => exact absurd trivial h

/-- An instruction whose parameters are inside the image completes: it keeps `status` or halts. -/
theorem exec_completes {i : Instr} {s : State} (h : ParamsInBounds i s) :
    ∃ t, exec i s = .next t ∧ (t.status = s.status ∨ t.status = .halted) := by
  cases i with
  | add a b dst | mul a b dst | lt a b dst | eq a b dst =>
    obtain ⟨ha, hb, hw⟩ := h
    exact ⟨_, (binaryStore_readable _ a b dst s ha hb).trans (storeAndAdvance_writable dst _ 3 s hw), .inl rfl⟩
  | inp dst => exact ⟨_, exec_inp_writable h, .inl rfl⟩
  | out src => exact ⟨_, exec_out_readable h, .inl rfl⟩
  | jnz c target | jz c target =>
    obtain ⟨hc, ht⟩ := h
    exact ⟨_, conditionalJump_readable _ c target s hc ht, .inl (by split <;> rfl)⟩
  | halt => exact ⟨_, exec_halt s, .inr rfl⟩

/-- In a run, an instruction enters `OutOfBounds` exactly when a parameter is outside the image. -/
theorem exec_outOfBounds_iff {i : Instr} {s : State} (hs : s.status = .running) :
    exec i s = .next (failed .outOfBounds s) ↔ ¬ ParamsInBounds i s := by
  refine ⟨fun h hin => ?_, exec_fails⟩
  obtain ⟨t, ht, hst⟩ := exec_completes hin
  obtain rfl : t = failed .outOfBounds s := Host.Outcome.next.inj (ht.symm.trans h)
  simp [failed, hs] at hst

/-- Parameter i at `ip`, by its role, does not resolve or is a write address outside the image. -/
def ParamFails (op : Opcode) (s : State) (i : Nat) : Prop :=
  ((paramRoles op)[i]? = some .value ∧ ¬ Readable (valueAt s i) s) ∨
    ((paramRoles op)[i]? = some .write ∧ ¬ Writable (rawParam s i) s)

/-- What holds at each place of a list with role `r`, place by place. -/
theorem forall_role_cons (r r' : Role) (rs : List Role) (p : Nat → Prop) :
    (∀ i : Nat, (r' :: rs)[i]? = some r → p i) ↔ (r' = r → p 0) ∧ ∀ i : Nat, rs[i]? = some r → p (i + 1) := by
  rw [← Nat.and_forall_add_one]
  simp

/-- The instruction at `ip` has a parameter outside the image exactly when one of its opcode's parameters fails. -/
theorem not_paramsInBounds_instrAt (op : Opcode) (s : State) :
    ¬ ParamsInBounds (instrAt op s) s ↔ ∃ i, ParamFails op s i := by
  have hroles : ParamsInBounds (instrAt op s) s ↔
      (∀ i : Nat, (paramRoles op)[i]? = some .value → Readable (valueAt s i) s) ∧
        ∀ i : Nat, (paramRoles op)[i]? = some .write → Writable (rawParam s i) s := by
    cases op <;> simp [paramRoles, forall_role_cons, instrAt, ParamsInBounds, and_assoc]
  rw [hroles, Classical.not_and_iff_not_or_not, not_forall, not_forall, ← exists_or]
  simp only [Classical.not_imp, ParamFails]

/-! The places of a step that enter `OutOfBounds` (R151). -/

/-- The decoder of one word never misses a parameter word. -/
theorem runErrorOf_decodeWord_ne {w : Word} {e : DecodeError} (h : decodeWord w = .error e) :
    runErrorOf e ≠ .outOfBounds := by
  unfold decodeWord at h
  split at h
  · cases h
    decide
  · split at h
    · cases h
      decide
    · split at h
      · cases h
      · cases h
        decide

/-- A step whose word does not decode does not enter `OutOfBounds` (R152, R153). -/
theorem step_ne_outOfBounds_of_decodeWord_error {s : State} {e : DecodeError} (hs : s.status = .running)
    (hb : s.InBounds s.ip.toInt) (hw : decodeWord (instrWord s) = .error e) :
    step s ≠ .next (failed .outOfBounds s) := by
  rw [step_decodeWord_error s e hs hb hw]
  intro h
  have hstatus := congrArg State.status (Host.Outcome.next.inj h)
  exact runErrorOf_decodeWord_ne hw (RunStatus.failed.inj hstatus)

/-- A step whose word decodes enters `OutOfBounds` exactly when its parameter words are not all inside the image, or
they are and a parameter fails. -/
theorem step_outOfBounds_iff_of_decodeWord {s : State} {h : Header} (hs : s.status = .running)
    (hb : s.InBounds s.ip.toInt) (hw : decodeWord (instrWord s) = .ok h) :
    step s = .next (failed .outOfBounds s) ↔
      (1 ≤ paramCount h.op ∧ (s.len : Int) < s.ip.toInt + 1 + paramCount h.op) ∨
        ((1 ≤ paramCount h.op → s.ip.toInt + 1 + paramCount h.op ≤ (s.len : Int)) ∧ ∃ i, ParamFails h.op s i) := by
  by_cases hfit : s.ip.toInt + 1 + paramCount h.op ≤ (s.len : Int)
  · rw [step_instrAt hs hb hw hfit, exec_outOfBounds_iff hs, not_paramsInBounds_instrAt]
    simp [hfit, not_lt.2 hfit]
  · have hn : 1 ≤ paramCount h.op := by
      have := hb.2
      omega
    exact iff_of_true (step_params_outOfBounds hs hb hw hn (not_le.1 hfit)) (.inl ⟨hn, not_le.1 hfit⟩)

/-! The host's accesses outside a run (R151). -/

theorem transact_read_outOfBounds {p : Platform} {a : Int} (hp : p.busy = false) (h : ¬ p.image.InBounds a) :
    transact (.read a) p = .ok (p, .error (.run .outOfBounds)) := by
  simp [transact, hp, hostRead, Image.read_outOfBounds _ a h]

theorem transact_write_outOfBounds {p : Platform} {a : Int} (v : Word) (hp : p.busy = false)
    (h : ¬ p.image.InBounds a) : transact (.write a v) p = .ok (p, .error (.run .outOfBounds)) := by
  simp [transact, hp, hostWrite, Image.write_outOfBounds _ a v h]

theorem transact_slice_outOfBounds {p : Platform} {a : Int} {n : Nat} (hp : p.busy = false) (hn : 1 ≤ n)
    (h : ¬ (0 ≤ a ∧ a + n ≤ (p.image.len : Int))) :
    transact (.slice a n) p = .ok (p, .error (.run .outOfBounds)) := by
  simp [transact, hp, hostSlice, Image.slice_outOfBounds _ a n (Nat.one_le_iff_ne_zero.1 hn) h]

/-! Several cores (R164). -/

theorem stepCore_of_step {cs : List State} {k : Nat} {s t : State} (hk : cs[k]? = some s) (hst : step s = .next t) :
    stepCore k cs = .next (cs.set k t) := by
  simp only [stepCore, hk, hst]

/-- Everything a step of core k that answers a next list can do. -/
theorem stepCore_next {cs ds : List State} {k : Nat} (h : stepCore k cs = .next ds) :
    ∃ s t, cs[k]? = some s ∧ step s = .next t ∧ ds = cs.set k t := by
  unfold stepCore at h
  split at h
  · cases h
  · rename_i s hk
    split at h
    · rename_i t hst
      exact ⟨s, t, hk, hst, (Host.Outcome.next.inj h).symm⟩
    · cases h
    · cases h

end Sys2Proof.Machine
end

section
/-! The statements about exceptions (60_exceptions.md), settled. -/

namespace Sys2Proof.Proofs

open Sys2Proof Sys2Proof.Machine Sys2Proof.Claims

/-- Settles O34: an instruction with a parameter outside the image fails, whichever parameter it is. -/
theorem operandOutsideImageFaults : Obligations.OperandOutsideImageFaults :=
  fun _ _ _ _ => ⟨fun h => ⟨exec_fails h, exec_fails h, exec_fails h, exec_fails h⟩, fun h => exec_fails h,
    fun h => exec_fails h, fun h => ⟨exec_fails h, exec_fails h⟩⟩

/-- Settles O35, by the phases of a step: the fetch, the decoder, then the parameter words and the parameters; and by
the bounds check of each access of the host. -/
theorem outOfBoundsHasFourPlaces : Obligations.OutOfBoundsHasFourPlaces := by
  refine ⟨fun s hs => ?_, fun p a v n hp => ⟨fun h => ?_, transact_slice_outOfBounds hp⟩⟩
  · by_cases hb : s.InBounds s.ip.toInt
    · cases hw : decodeWord (instrWord s) with
      | error e =>
        refine iff_of_false (step_ne_outOfBounds_of_decodeWord_error hs hb hw) ?_
        rintro (hout | ⟨h, -, hok, -⟩)
        · exact hout hb
        · cases hok
      | ok h =>
        refine (step_outOfBounds_iff_of_decodeWord hs hb hw).trans ⟨fun hplace => .inr ⟨h, hb, rfl, hplace⟩, ?_⟩
        rintro (hout | ⟨h', -, hok, hplace⟩)
        · exact absurd hb hout
        · cases hok
          exact hplace
    · exact iff_of_true (step_outOfBounds hs hb) (.inl hb)
  · exact ⟨transact_read_outOfBounds hp h, transact_write_outOfBounds v hp h⟩

/-- Settles O56: a step of core k replaces entry k of the list alone, and replacements at two places commute. -/
theorem coresAreIndependent : Obligations.CoresAreIndependent := by
  intro cs ds k h
  obtain ⟨s, t, hk, hst, rfl⟩ := stepCore_next h
  obtain ⟨hlt, -⟩ := List.getElem?_eq_some_iff.1 hk
  refine ⟨⟨s, t, hk, hst, List.getElem?_set_self hlt⟩, fun j hj => ?_⟩
  have hframe : (cs.set k t)[j]? = cs[j]? := List.getElem?_set_ne hj.symm
  refine ⟨hframe, fun es hes => ?_⟩
  obtain ⟨s', t', hj', hst', rfl⟩ := stepCore_next hes
  have hk' : (cs.set j t')[k]? = some s := (List.getElem?_set_ne hj).trans hk
  refine ⟨cs.set j t', stepCore_of_step (hframe.symm.trans hj') hst', ?_⟩
  rw [stepCore_of_step hk' hst, List.set_comm t' t hj]

end Sys2Proof.Proofs
end

section
/-! The laws behind the statements about reset and the host's hazards (70_reset_and_hazards.md): one step of the run
loop, the entry of a run, and the transactions during a run. -/

namespace Sys2Proof.Machine

/-- The run loop takes the step that is defined, or stays in the state where none is (R91). -/
theorem runLoop_cases (s : State) :
    (∃ t, step s = .next t ∧ ∀ fuel, runLoop (fuel + 1) s = runLoop fuel t) ∨ ∀ fuel, runLoop (fuel + 1) s = s := by
  cases hst : step s with
  | next t => exact .inl ⟨t, rfl, fun fuel => by simp only [runLoop, hst]⟩
  | fault f => exact .inr fun fuel => by simp only [runLoop, hst]
  | refused r => exact .inr fun fuel => by simp only [runLoop, hst]

theorem transact_run {p : Platform} {input : Int} (hp : p.busy = false)
    (hr : Config.wordMin ≤ input ∧ input ≤ Config.wordMax) :
    transact (.run input) p = .ok (.entered (runEntry p.image (wrapW input)), .entered) := by
  simp [transact, hp, hostRun, hr]

theorem Platform.busy_entered {s : State} (h : s.status = .running) : (Platform.entered s).busy = true :=
  decide_eq_true h

/-- Every transaction but `parse` asks first whether a run is in progress (U11). -/
theorem transact_busy {tr : Transaction} {p : Platform} (hp : p.busy = true) (h : ∀ bytes, tr ≠ .parse bytes) :
    transact tr p = .error .runInProgress := by
  cases tr with
  | parse bytes => exact absurd rfl (h bytes)
  | read | write | slice | clone | run => exact if_pos hp

theorem transact_parse_platform {bytes : List Byte} {p p' : Platform} {r : Response}
    (h : transact (.parse bytes) p = .ok (p', r)) : p' = p := by
  simp only [transact] at h
  split at h
  · cases h
  · cases h
    rfl

end Sys2Proof.Machine
end

section
/-! The statements about reset and the host's hazards (70_reset_and_hazards.md), settled. -/

namespace Sys2Proof.Proofs

open Sys2Proof Sys2Proof.Machine Sys2Proof.Claims

/-- Settles O49, by induction on the fuel: a first step that fetches no OUT leaves `io`, and the rest of the run
starts where it ended. -/
theorem noOutKeepsTheInput : Obligations.NoOutKeepsTheInput := by
  intro fuel
  induction fuel with
  | zero => exact fun _ _ => rfl
  | succ fuel ih =>
    intro s h
    obtain ⟨t, hst, hrun⟩ | hstay := runLoop_cases s
    · have hio : t.io = s.io := by
        by_contra hne
        obtain ⟨src, hout, -⟩ := onlyOutWritesIo s t hst hne
        exact h 0 fuel.succ_pos src hout
      have hrest : ∀ k < fuel, ∀ src, fetch (runLoop k t) ≠ .ok (.out src) := fun k hk =>
        hrun k ▸ h (k + 1) (Nat.succ_lt_succ hk)
      calc (runLoop (fuel + 1) s).io = (runLoop fuel t).io := by rw [hrun]
        _ = t.io := ih t hrest
        _ = s.io := hio
    · rw [hstay]

/-- Settles O48: an input in the word range is the value of the word that wrapping makes of it. -/
theorem runEntrySetsThreeRegisters : Obligations.RunEntrySetsThreeRegisters :=
  fun p input hp hmin hmax => ⟨runEntry p.image (wrapW input), transact_run hp ⟨hmin, hmax⟩,
    (wrapW_toInt input).trans (wrapInt_of_inRange hmin hmax), rfl, rfl, rfl⟩

/-- Settles O54: a transaction that succeeds while a run is in progress can only be `parse`. -/
theorem hostHasNoMoveDuringARun : Obligations.HostHasNoMoveDuringARun := by
  intro s tr hs
  have hbusy := transact_busy (tr := tr) (Platform.busy_entered hs)
  refine ⟨hbusy, fun p' r h => ?_⟩
  cases tr with
  | parse bytes => exact transact_parse_platform h
  | read | write | slice | clone | run => cases h.symm.trans (hbusy nofun)

end Sys2Proof.Proofs
end
